-- ==== Sys2Proof/Word.lean ====
section
/-! DEFINITION. The widths of the machine: the 32-bit data word, the 128-bit instruction word, the 40-bit operand
field, and the range of a signed 32-bit integer (spec/00_scope.md R10, R11, R13; spec/30_encoding.md R90, R91). -/

namespace Sys2Proof

/-- A register, a main-memory word or a literal: a signed 32-bit integer, held as its two's-complement pattern and
read with `BitVec.toInt` (R10, R13). PRESUMED by the spec itself (its G1); log entry 2. -/
abbrev Word := BitVec 32

/-- One instruction word, bit 127 the most significant (R90, R14). -/
abbrev InstrWord := BitVec 128

/-- One operand field of an instruction word (R92). -/
abbrev OperandField := BitVec 40

/-- An instruction index: the width of `pc`, `FAULT_PC` and `LAST_PC`, unsigned (R11 `PCLEN`). -/
abbrev InstrIndex := BitVec 32

/-- `INT_MIN` (R13). -/
def intMin : Int := -2147483648

/-- `INT_MAX` (R13). -/
def intMax : Int := 2147483647

end Sys2Proof
end

