-- ==== Sys2Proof/Syntax.lean ====
section
/-! DEFINITION. The nine instructions (spec/00_scope.md R2; spec/30_encoding.md R93, R94) over tagged operands (R97).
One constructor per row of the opcode table; operands stand in text order. -/

namespace Sys2Proof

/-- An operand as its field encodes it (R97). Its meaning is found only when the instruction executes (R42). -/
inductive Operand where
  /-- `KIND = 0x00`: a literal, the whole 32-bit pattern (R105) -/
  | lit (value : Word)
  /-- `KIND = 0x01`: register form; the index is the whole unsigned payload, never truncated (R105) -/
  | reg (index : BitVec 32)
  /-- any other `KIND`: malformed; the payload is ignored when it executes but kept so that no bit is lost -/
  | bad (kind : BitVec 8) (payload : BitVec 32)
  deriving DecidableEq, Repr

/-- An instruction. The two-operand ones have no third operand: their `OP3` is ignored (R93, R95). -/
inductive Instr where
  | add (dst a b : Operand)
  | sub (dst a b : Operand)
  | mul (dst a b : Operand)
  | div (dst a b : Operand)
  | ld (addr dst : Operand)
  | str (src addr : Operand)
  | mov (src dst : Operand)
  | cmp (target literal : Operand)
  | jmp (cond target : Operand)
  deriving DecidableEq, Repr

end Sys2Proof
end

