-- ==== Sys2Proof/WellFormed.lean ====
section
/-! DEFINITION. Well-formed instructions: the terms of `Instr` that some instruction word stands for. The one thing a
term can get wrong is a malformed operand that carries the kind code of a literal or of a register (R97). -/

namespace Sys2Proof

/-- A malformed operand carries one of the kind codes `0x02` to `0xFF` (R97). -/
def Operand.wf : Operand → Bool
  | .lit _ => true
  | .reg _ => true
  | .bad kind _ => decide (2 ≤ kind.toNat)

/-- Every operand of the instruction is well-formed. -/
def Instr.wf : Instr → Bool
  | .add dst a b => dst.wf && a.wf && b.wf
  | .sub dst a b => dst.wf && a.wf && b.wf
  | .mul dst a b => dst.wf && a.wf && b.wf
  | .div dst a b => dst.wf && a.wf && b.wf
  | .ld addr dst => addr.wf && dst.wf
  | .str src addr => src.wf && addr.wf
  | .mov src dst => src.wf && dst.wf
  | .cmp target literal => target.wf && literal.wf
  | .jmp cond target => cond.wf && target.wf

end Sys2Proof
end

