-- ==== Sys2Proof/Decode.lean ====
section
/-! DEFINITION. The decoder, total on 128-bit words, and the encoder (spec/30_encoding.md R90 to R97). -/

namespace Sys2Proof

/-! ### Fields (R91, R92) -/

/-- `W[127:120]`, the opcode number. -/
def opcOf (w : InstrWord) : BitVec 8 := w.extractLsb' 120 8

/-- `W[119:80]`, the first operand. -/
def op1Of (w : InstrWord) : OperandField := w.extractLsb' 80 40

/-- `W[79:40]`, the second operand. -/
def op2Of (w : InstrWord) : OperandField := w.extractLsb' 40 40

/-- `W[39:0]`, the third operand. -/
def op3Of (w : InstrWord) : OperandField := w.extractLsb' 0 40

/-- `OPn[39:32]`, the form of the operand. -/
def kindOf (f : OperandField) : BitVec 8 := f.extractLsb' 32 8

/-- `OPn[31:0]`, the payload. -/
def payOf (f : OperandField) : BitVec 32 := f.extractLsb' 0 32

/-! ### Decoding -/

/-- The operand an operand field stands for (R97). -/
def decodeOperand (f : OperandField) : Operand :=
  if kindOf f = 0x00#8 then .lit (payOf f)
  else if kindOf f = 0x01#8 then .reg (payOf f)
  else .bad (kindOf f) (payOf f)

/-- Why a word is no instruction. -/
inductive Reject where
  /-- the opcode field is not `0x01` to `0x09` (R96); executing the word raises `IllegalOpcode` -/
  | illegalOpcode (opc : BitVec 8)
  deriving DecidableEq, Repr

/-- The instruction of a word: the opcode field alone selects it, and no operand is looked into (R42, R94). -/
def decode (w : InstrWord) : Except Reject Instr :=
  match (opcOf w).toNat with
  | 0x01 => .ok (.add (decodeOperand (op1Of w)) (decodeOperand (op2Of w)) (decodeOperand (op3Of w)))
  | 0x02 => .ok (.sub (decodeOperand (op1Of w)) (decodeOperand (op2Of w)) (decodeOperand (op3Of w)))
  | 0x03 => .ok (.mul (decodeOperand (op1Of w)) (decodeOperand (op2Of w)) (decodeOperand (op3Of w)))
  | 0x04 => .ok (.div (decodeOperand (op1Of w)) (decodeOperand (op2Of w)) (decodeOperand (op3Of w)))
  | 0x05 => .ok (.ld (decodeOperand (op1Of w)) (decodeOperand (op2Of w)))
  | 0x06 => .ok (.str (decodeOperand (op1Of w)) (decodeOperand (op2Of w)))
  | 0x07 => .ok (.mov (decodeOperand (op1Of w)) (decodeOperand (op2Of w)))
  | 0x08 => .ok (.cmp (decodeOperand (op1Of w)) (decodeOperand (op2Of w)))
  | 0x09 => .ok (.jmp (decodeOperand (op1Of w)) (decodeOperand (op2Of w)))
  | _ => .error (.illegalOpcode (opcOf w))

/-! ### Encoding -/

/-- The field of an operand: its kind code, then its payload (R92, R97). -/
def encodeOperand : Operand → OperandField
  | .lit value => 0x00#8 ++ value
  | .reg index => 0x01#8 ++ index
  | .bad kind payload => kind ++ payload

/-- The word with the given opcode number and operand fields (R91). -/
def packWord (opc : BitVec 8) (f1 f2 f3 : OperandField) : InstrWord := opc ++ f1 ++ f2 ++ f3

/-- What fills the unused third operand of a two-operand instruction: the literal 0 (R95). -/
def fillerField : OperandField := 0x0000000000#40

/-- The opcode number of an instruction (R94). -/
def Instr.opcode : Instr → BitVec 8
  | .add _ _ _ => 0x01#8
  | .sub _ _ _ => 0x02#8
  | .mul _ _ _ => 0x03#8
  | .div _ _ _ => 0x04#8
  | .ld _ _ => 0x05#8
  | .str _ _ => 0x06#8
  | .mov _ _ => 0x07#8
  | .cmp _ _ => 0x08#8
  | .jmp _ _ => 0x09#8

/-- The word of an instruction (R91 to R95). -/
def encode (i : Instr) : InstrWord :=
  match i with
  | .add dst a b => packWord i.opcode (encodeOperand dst) (encodeOperand a) (encodeOperand b)
  | .sub dst a b => packWord i.opcode (encodeOperand dst) (encodeOperand a) (encodeOperand b)
  | .mul dst a b => packWord i.opcode (encodeOperand dst) (encodeOperand a) (encodeOperand b)
  | .div dst a b => packWord i.opcode (encodeOperand dst) (encodeOperand a) (encodeOperand b)
  | .ld addr dst => packWord i.opcode (encodeOperand addr) (encodeOperand dst) fillerField
  | .str src addr => packWord i.opcode (encodeOperand src) (encodeOperand addr) fillerField
  | .mov src dst => packWord i.opcode (encodeOperand src) (encodeOperand dst) fillerField
  | .cmp target literal => packWord i.opcode (encodeOperand target) (encodeOperand literal) fillerField
  | .jmp cond target => packWord i.opcode (encodeOperand cond) (encodeOperand target) fillerField

/-! ### The opcode table's numbering -/

/-- The instruction word whose low `nbits` bits are those of `w` and whose other bits are 0. One instruction is one
word, so the opcode table's bit `k` is `W[k]` (R14, R90). -/
def tableWord (nbits w : Nat) : InstrWord := BitVec.ofNat 128 (w % 2 ^ nbits)

/-- The instruction the decoder reads from a word numbered as the opcode table numbers it. -/
def decodeTableWord (nbits w : Nat) : Option Instr :=
  match decode (tableWord nbits w) with
  | .ok i => some i
  | .error _ => none

end Sys2Proof
end

