-- ==== Sys2Proof/Config.lean ====
section
/-! DEFINITION. What the spec leaves open as named parameters (spec/00_scope.md R12): the type of `OVERFLOW_MODE`,
whose value for a run stands in State, and `IMEM_DEPTH`, a constant nobody can evaluate. -/

namespace Sys2Proof

/-- `OVERFLOW_MODE`: what add, sub, mul and div do when the exact result does not fit (R12, R131). -/
inductive OverflowMode where
  /-- raise `ArithmeticOverflow`, write nothing -/
  | fault
  /-- keep the low 32 bits -/
  | wrap
  deriving DecidableEq, Repr

/-- `IMEM_DEPTH - 1`. No body: no proof can see which depth it is (R12: `1 <= IMEM_DEPTH <= 2^31`). Log entry 9. -/
opaque Config.imemDepthLessOne : Fin 2147483648

/-- `IMEM_DEPTH`, the capacity of the program memory in instruction words (R12). -/
def Config.imemDepth : Nat := Config.imemDepthLessOne.val + 1

end Sys2Proof
end

