-- ==== Sys2Proof/Machine/Params.lean ====
section
/-! DEFINITION. The value the model's reset state gives the run constant `OVERFLOW_MODE`. -/

namespace Sys2Proof.Machine

/-- `OVERFLOW_MODE` of `State.reset`. DESIGN CHOICE (safe): the spec leaves the parameter open and recommends `fault`
(spec/40_arithmetic.md R131). Statements range over both modes, since the mode in force stands in State. Log entry 3. -/
def overflowAtReset : OverflowMode := .fault

end Sys2Proof.Machine
end

