-- ==== Sys2Proof/Machine/State.lean ====
section
/-! DEFINITION. Everything the spec gives the machine (spec/10_state.md R20), the run constants it takes as parameters
(spec/00_scope.md R12), the state after reset (R50), and the names of the ways a step can stop. -/

namespace Sys2Proof.Machine

/-- Main memory: the words `0` to `47` that are not 0, each with its word index, indices strictly rising; an unlisted
index reads as 0 (spec/20_memory.md R61). The unit is the 32-bit word, because the spec has no bytes (R65). Log entry 1. -/
abbrev Memory := List (Nat × Word)

/-- The fault causes (spec/60_exceptions.md R201). Raising one is an ordinary next state (R210), not a stop. -/
inductive Cause where
  | illegalOpcode
  | operandFormatError
  | operandRangeError
  | divisionByZero
  | outOfRangeMemoryAccess
  | arithmeticOverflow
  | jumpTargetRange
  deriving DecidableEq, Repr

structure State where
  /-- `x[0..11]`, the register file (R20, R21) -/
  regs : Vector Word 12
  /-- `mem[0..47]`, the main memory (R20; spec/20_memory.md R61) -/
  mem : Memory
  /-- the index of the next instruction to execute (R20, R30) -/
  pc : InstrIndex
  /-- `FAULT_CAUSE`: 0, or the code of the fault that stopped the run (R20, R34) -/
  faultCause : BitVec 3
  /-- `FAULT_PC`: the index of the instruction that faulted (R20, R34) -/
  faultPc : InstrIndex
  /-- `LAST_VALID`: whether a step has completed since reset (R20, R35) -/
  lastValid : Bool
  /-- `LAST_PC`: the index of the instruction that completed last (R20, R35) -/
  lastPc : InstrIndex
  /-- `LAST_WORD`: the word of the instruction that completed last (R20, R35) -/
  lastWord : InstrWord
  /-- `PAUSED`: in trace mode, the machine waits for the host's acknowledgment (R20; spec/60_exceptions.md R231) -/
  paused : Bool
  /-- run constant `imem[0..PROG_LEN-1]`, the loaded program (spec/00_scope.md R12; spec/20_memory.md R62) -/
  imem : List InstrWord
  /-- run constant `TRACE` (spec/00_scope.md R12; spec/60_exceptions.md R230) -/
  trace : Bool
  /-- run constant `OVERFLOW_MODE` (spec/00_scope.md R12; spec/40_arithmetic.md R131) -/
  overflowMode : OverflowMode
  deriving DecidableEq, Repr

/-- `PROG_LEN`: the number of instruction words loaded (spec/70_reset_and_hazards.md R248). Log entry 4. -/
abbrev State.progLen (s : State) : Nat := s.imem.length

/-- The run states (spec/10_state.md R43). -/
inductive RunState where
  | faulted
  | done
  | paused
  | running
  deriving DecidableEq, Repr

/-- Where no step is enabled (spec/10_state.md R40, R43). No instruction raises any of these: `step` alone does, before
it fetches. All are safe: the spec has no next state there either. Log entry 7. -/
inductive Fault where
  /-- raised by `step` in DONE: the run has ended normally (R43, R44). Safe. -/
  | runDone
  /-- raised by `step` in FAULTED: the run was stopped by a fault and only reset leaves this (R43; R212). Safe. -/
  | runFaulted
  /-- raised by `step` in PAUSED: only the host's acknowledgment goes on (R43; R231). Safe. -/
  | awaitingAck
  deriving DecidableEq, Repr

/-- Rejections. -/
inductive Refusal where
  /-- raised by an arm of `exec` whose instruction has no meaning yet. Safe. No arm does. -/
  | notModelled (mnemonic : String)
  deriving DecidableEq, Repr

/-- The machine right after reset (spec/10_state.md R50), with no program placed in it. `lastPc` and `lastWord` are 0 by
DESIGN CHOICE (log entry 6; the spec: unspecified); `imem`, `trace` and `overflowMode` are run constants that reset does
not set (log entries 5, 10, 3). -/
def State.reset : State where
  regs := Vector.replicate 12 0
  mem := []
  pc := 0
  faultCause := 0
  faultPc := 0
  lastValid := false
  lastPc := 0
  lastWord := 0
  paused := false
  imem := []
  trace := false
  overflowMode := overflowAtReset

end Sys2Proof.Machine
end

