-- ==== Sys2Proof/Machine/Ops.lean ====
section
/-! DEFINITION. The operations every meaning is written over: register and memory access, advancing `pc`, taking a
fault, completing a step, and the run state. There is no return from a fault to stand beside its entry: only reset
leaves FAULTED (spec/60_exceptions.md R212). -/

namespace Sys2Proof.Machine

/-! ### Main memory (spec/20_memory.md R61, R63, R68) -/

/-- What a word that no store has written reads as: the reset value 0 (R61). -/
def unlistedWord : Word := 0

/-- `MemRead(a, 1)` (R63). -/
def memRead : Memory → Nat → Word
  | [], _ => unlistedWord
  | (k, v) :: m, a => if a = k then v else memRead m a

/-- `MemWrite(a, 1, v)` (R63), keeping the canonical form. -/
def memWrite : Memory → Nat → Word → Memory
  | [], a, v => if v = unlistedWord then [] else [(a, v)]
  | (k, w) :: m, a, v =>
    if a < k then (if v = unlistedWord then (k, w) :: m else (a, v) :: (k, w) :: m)
    else if a = k then (if v = unlistedWord then m else (a, v) :: m)
    else (k, w) :: memWrite m a v

/-- The number of words of main memory, `MEM_WORDS` (spec/00_scope.md R10). -/
def memWords : Nat := 48

/-- Canonical from index `lo` on: indices strictly rising from at least `lo`, below 48, and no listed word reads as an
unlisted one. -/
def Memory.wfFrom (lo : Nat) : Memory → Bool
  | [] => true
  | (k, v) :: m => decide (lo ≤ k) && decide (k < memWords) && decide (v ≠ unlistedWord) && Memory.wfFrom (k + 1) m

/-- The canonical form of main memory. -/
def Memory.wf (m : Memory) : Bool := Memory.wfFrom 0 m

/-! ### Registers and `pc` -/

/-- `x[i]` (spec/10_state.md R21). No register is special (R22). -/
def State.readReg (s : State) (i : Fin 12) : Word := s.regs[i]

/-- `x[i] <- v`. -/
def State.writeReg (s : State) (i : Fin 12) (v : Word) : State := { s with regs := s.regs.set i v }

/-- `mem[a] <- v`. -/
def State.writeMem (s : State) (a : Nat) (v : Word) : State := { s with mem := memWrite s.mem a v }

/-- `pc <- t`. -/
def State.setPc (s : State) (t : InstrIndex) : State := { s with pc := t }

/-- Fall-through: `pc <- pc + 1` (spec/10_state.md R31). -/
def State.advance (s : State) : State := s.setPc (s.pc + 1)

/-! ### Faults (spec/60_exceptions.md R201, R210) -/

/-- The code of a cause (R201). -/
def Cause.code : Cause → BitVec 3
  | .illegalOpcode => 1
  | .operandFormatError => 2
  | .operandRangeError => 3
  | .divisionByZero => 4
  | .outOfRangeMemoryAccess => 5
  | .arithmeticOverflow => 6
  | .jumpTargetRange => 7

/-- Fault entry: the cause and the faulting instruction's index are recorded, and nothing else changes (R210). -/
def State.enterFault (s : State) (c : Cause) : State := { s with faultCause := c.code, faultPc := s.pc }

/-- How an instruction rule ends: with the state it made, or by taking the fault it raised FROM THE STATE IT BEGAN WITH,
so that a raise leaves no partial effect (R210, R211). -/
def settle (s : State) : Except Cause State → Host.Outcome State Fault Refusal
  | .ok t => .next t
  | .error c => .next (s.enterFault c)

/-! ### Run states and the end of a step (spec/10_state.md R40, R43) -/

/-- The run state (R43). -/
def State.runState (s : State) : RunState :=
  if s.faultCause ≠ 0#3 then .faulted
  else if s.paused then .paused
  else if s.pc.toNat < s.progLen then .running
  else .done

/-- What a step does after its instruction (R40, R35): when the instruction did not fault, record it as the last one
completed and, in trace mode, pause; when it did fault, nothing. `s` is the state the step began with, `w` the word it
fetched, `t` what the instruction left. -/
def retire (w : InstrWord) (s t : State) : State :=
  if t.faultCause = 0#3 then
    { t with lastValid := true, lastPc := s.pc, lastWord := w, paused := t.paused || t.trace }
  else t

end Sys2Proof.Machine
end

