-- ==== Sys2Proof/Machine/Flags.lean ====
section
/-! DEFINITION. The machine has NO flags (spec/10_state.md R33). What stands here is all that is computed ABOUT a
result: whether it fits, how it is narrowed, and the 1 or 0 a comparison leaves in its register. -/

namespace Sys2Proof.Machine

/-- `fits32(z)` (spec/00_scope.md R15). -/
def fits32 (z : Int) : Bool := decide (intMin ≤ z) && decide (z ≤ intMax)

/-- `wrap32(z)` as a pattern: the low 32 bits; also `u32(z)` when `z` fits (R15). -/
def wrap32 (z : Int) : Word := BitVec.ofInt 32 z

/-- `tdiv(a, b)`: the quotient truncated toward zero (R15). -/
def tdiv (a b : Int) : Int := a.tdiv b

/-- `Arith(z)`: the exact result when it fits, otherwise as `OVERFLOW_MODE` says (spec/40_arithmetic.md R131). -/
def arith (mode : OverflowMode) (z : Int) : Except Cause Word :=
  if fits32 z then .ok (wrap32 z)
  else
    match mode with
    | .wrap => .ok (wrap32 z)
    | .fault => .error .arithmeticOverflow

/-- What `cmp` leaves in its target: 1 for equal, 0 for unequal (spec/42_move_compare.md R167). -/
def compareResult (x k : Word) : Word := if x = k then 1#32 else 0#32

end Sys2Proof.Machine
end

