-- ==== Sys2Proof/Machine/Operands.lean ====
section
/-! DEFINITION. Operand resolution: the four functions of spec/30_encoding.md R100 to R103. Each looks at the form
first and at a register's index second (R215). -/

namespace Sys2Proof.Machine

/-- `RegIdx(op)`: the operand must name a register; its index (R100). -/
def regIdx : Operand → Except Cause (Fin 12)
  | .reg index => if h : index.toNat < 12 then .ok ⟨index.toNat, h⟩ else .error .operandRangeError
  | .lit _ => .error .operandFormatError
  | .bad _ _ => .error .operandFormatError

/-- `RegVal(op)`: the operand must name a register; its current value (R101). -/
def regVal (s : State) (op : Operand) : Except Cause Word :=
  match regIdx op with
  | .ok i => .ok (s.readReg i)
  | .error c => .error c

/-- `Val(op)`: a register's current value or the literal itself (R102). -/
def val (s : State) : Operand → Except Cause Word
  | .reg index => regVal s (.reg index)
  | .lit value => .ok value
  | .bad _ _ => .error .operandFormatError

/-- `Lit(op)`: the operand must be a literal; the literal itself (R103). Its signed value is `BitVec.toInt` of this. -/
def litVal : Operand → Except Cause Word
  | .lit value => .ok value
  | .reg _ => .error .operandFormatError
  | .bad _ _ => .error .operandFormatError

end Sys2Proof.Machine
end

