-- ==== Sys2Proof/Machine/Arithmetic.lean ====
section
/-! DEFINITION. add, sub, mul, div (spec/40_arithmetic.md R130 to R137). -/

namespace Sys2Proof.Machine

/-- `ArithCommon(f)`: resolve OP1, OP2, OP3 in that order, compute, write the one destination, fall through (R130). -/
def arithCommon (f : Word → Word → Except Cause Word) (dst a b : Operand) (s : State) : Except Cause State :=
  match regIdx dst with
  | .error c => .error c
  | .ok d =>
    match val s a with
    | .error c => .error c
    | .ok x =>
      match val s b with
      | .error c => .error c
      | .ok y =>
        match f x y with
        | .error c => .error c
        | .ok r => .ok (s.writeReg d r).advance

/-- `add` (R134). -/
def execAdd (dst a b : Operand) (s : State) : Host.Outcome State Fault Refusal :=
  settle s (arithCommon (fun x y => arith s.overflowMode (x.toInt + y.toInt)) dst a b s)

/-- `sub`: OP2 minus OP3 (R135). -/
def execSub (dst a b : Operand) (s : State) : Host.Outcome State Fault Refusal :=
  settle s (arithCommon (fun x y => arith s.overflowMode (x.toInt - y.toInt)) dst a b s)

/-- `mul`: the low 32 bits are all there is (R136). -/
def execMul (dst a b : Operand) (s : State) : Host.Outcome State Fault Refusal :=
  settle s (arithCommon (fun x y => arith s.overflowMode (x.toInt * y.toInt)) dst a b s)

/-- The division of R137: the divisor is checked first, the dividend plays no part in that check. -/
def divide (mode : OverflowMode) (x y : Word) : Except Cause Word :=
  if y = 0#32 then .error .divisionByZero else arith mode (tdiv x.toInt y.toInt)

/-- `div`: OP2 is the dividend, OP3 the divisor (R137). -/
def execDiv (dst a b : Operand) (s : State) : Host.Outcome State Fault Refusal :=
  settle s (arithCommon (fun x y => divide s.overflowMode x y) dst a b s)

end Sys2Proof.Machine
end

