-- ==== Sys2Proof/Machine/Jump.lean ====
section
/-! DEFINITION. jmp (spec/43_jump.md R180 to R183). -/

namespace Sys2Proof.Machine

/-- The index a jump's literal names, or the fault when it is negative, taken or not (R181). It is never compared with
`PROG_LEN` (R182). -/
def jumpTarget (n : Word) : Except Cause InstrIndex :=
  if n.toInt < 0 then .error .jumpTargetRange else .ok n

/-- `jmp`: taken when the register holds zero; the literal itself is the new `pc` (R181, R182). -/
def execJmp (cond target : Operand) (s : State) : Host.Outcome State Fault Refusal :=
  settle s <|
    match regVal s cond with
    | .error c => .error c
    | .ok v =>
      match litVal target with
      | .error c => .error c
      | .ok n =>
        match jumpTarget n with
        | .error c => .error c
        | .ok t => .ok (if v = 0#32 then s.setPc t else s.advance)

end Sys2Proof.Machine
end

