-- ==== Sys2Proof/Machine/LoadStore.lean ====
section
/-! DEFINITION. ld, str (spec/41_load_store.md R150 to R152). Neither reads a register to form an address. -/

namespace Sys2Proof.Machine

/-- `ld`: the register INDEX written in OP1 is the word index; the value of that register is not read (R151). -/
def execLd (addr dst : Operand) (s : State) : Host.Outcome State Fault Refusal :=
  settle s <|
    match regIdx addr with
    | .error c => .error c
    | .ok a =>
      match regIdx dst with
      | .error c => .error c
      | .ok d => .ok (s.writeReg d (memRead s.mem a.val)).advance

/-- The word index a store's literal names, or the fault when it is outside `0 .. 47` (R152; spec/20_memory.md R70). -/
def storeIndex (n : Word) : Except Cause Nat :=
  if n.toInt < 0 ∨ n.toInt > 47 then .error .outOfRangeMemoryAccess else .ok n.toInt.toNat

/-- `str`: the value of the register OP1 goes to the word whose index is the literal OP2 (R152). -/
def execStr (src addr : Operand) (s : State) : Host.Outcome State Fault Refusal :=
  settle s <|
    match regVal s src with
    | .error c => .error c
    | .ok v =>
      match litVal addr with
      | .error c => .error c
      | .ok n =>
        match storeIndex n with
        | .error c => .error c
        | .ok a => .ok (s.writeMem a v).advance

end Sys2Proof.Machine
end

