-- ==== Sys2Proof/Machine/MoveCompare.lean ====
section
/-! DEFINITION. mov, cmp (spec/42_move_compare.md R165 to R167). -/

namespace Sys2Proof.Machine

/-- `mov`: the source comes first, the destination second (R166). -/
def execMov (src dst : Operand) (s : State) : Host.Outcome State Fault Refusal :=
  settle s <|
    match regVal s src with
    | .error c => .error c
    | .ok v =>
      match regIdx dst with
      | .error c => .error c
      | .ok d => .ok (s.writeReg d v).advance

/-- `cmp`: the target register is read, compared with the literal, and overwritten with the outcome (R167). -/
def execCmp (target literal : Operand) (s : State) : Host.Outcome State Fault Refusal :=
  settle s <|
    match regIdx target with
    | .error c => .error c
    | .ok t =>
      match litVal literal with
      | .error c => .error c
      | .ok k => .ok (s.writeReg t (compareResult (s.readReg t) k)).advance

end Sys2Proof.Machine
end

