-- ==== Sys2Proof/Machine/Dispatch.lean ====
section
/-! DEFINITION. One arm per instruction (spec/00_scope.md R2). -/

namespace Sys2Proof.Machine

/-- The effect of one decoded instruction, by the instruction rule that spec/10_state.md R40 selects. -/
def exec (i : Instr) (s : State) : Host.Outcome State Fault Refusal :=
  match i with
  | .add dst a b => Sys2Proof.Machine.execAdd dst a b s
  | .sub dst a b => Sys2Proof.Machine.execSub dst a b s
  | .mul dst a b => Sys2Proof.Machine.execMul dst a b s
  | .div dst a b => Sys2Proof.Machine.execDiv dst a b s
  | .ld addr dst => Sys2Proof.Machine.execLd addr dst s
  | .str src addr => Sys2Proof.Machine.execStr src addr s
  | .mov src dst => Sys2Proof.Machine.execMov src dst s
  | .cmp target literal => Sys2Proof.Machine.execCmp target literal s
  | .jmp cond target => Sys2Proof.Machine.execJmp cond target s

end Sys2Proof.Machine
end

