-- ==== Sys2Proof/Machine/Cycle.lean ====
section
/-! DEFINITION. Fetch, and the running of one fetched word (spec/10_state.md R40 to R42). -/

namespace Sys2Proof.Machine

/-- `imem[pc]`, or nothing when `pc >= PROG_LEN` (R41). -/
def fetch (s : State) : Option InstrWord := s.imem[s.pc.toNat]?

/-- Decode and execute the word `w` fetched in state `s`, and end the step (R40). An illegal opcode is a fault of the
decode stage, and nothing of the operands is looked at (R42; spec/60_exceptions.md R202). -/
def runWord (w : InstrWord) (s : State) : Host.Outcome State Fault Refusal :=
  match decode w with
  | .error _ => .next (s.enterFault .illegalOpcode)
  | .ok i =>
    match exec i s with
    | .next t => .next (retire w s t)
    | .fault r => .fault r
    | .refused r => .refused r

/-- One step: R40 where it is enabled, and a stop named after the run state where it is not (R43). -/
def cycle (s : State) : Host.Outcome State Fault Refusal :=
  match s.runState with
  | .faulted => .fault .runFaulted
  | .paused => .fault .awaitingAck
  | .done => .fault .runDone
  | .running =>
    match fetch s with
    | some w => runWord w s
    | none => .fault .runDone

/-- The program with the word `w` at index `n`, lengthened with illegal words (0) where it does not reach that far. -/
def placeWord (imem : List InstrWord) (n : Nat) (w : InstrWord) : List InstrWord :=
  if n < imem.length then imem.set n w else imem ++ (List.replicate (n - imem.length) 0 ++ [w])

/-- `s` made ready to run `w` at its `pc`: the word placed there, and RUNNING (no fault recorded, not paused). -/
def placeFetch (s : State) (w : InstrWord) : State :=
  { s with imem := placeWord s.imem s.pc.toNat w, faultCause := 0, paused := false }

end Sys2Proof.Machine
end

