-- ==== Sys2Proof/Machine/Step.lean ====
section
/-! DEFINITION. The step, and the placing of one instruction where the step fetches. -/

namespace Sys2Proof.Machine

/-- One step of the machine (spec/10_state.md R40). -/
def step (s : State) : Host.Outcome State Fault Refusal := cycle s

/-- `s` with a word, numbered as the opcode table numbers it, stored where `step` fetches its next instruction. It stands
for the loader's work (spec/70_reset_and_hazards.md R245); log entry 5. -/
def State.withFetchWord (s : State) (nbits w : Nat) : State := placeFetch s (tableWord nbits w)

end Sys2Proof.Machine
end

