-- ==== Sys2Proof/Machine/Assembler.lean ====
section
/-! DEFINITION. The assembler and the formatter (spec/30_encoding.md R110 to R119): how program text becomes instruction
words and is printed again. They are the host's, not the engine's (spec/00_scope.md R6). A line is its list of
characters; log entry 14. -/

namespace Sys2Proof.Asm

/-- One line of program text. -/
abbrev Line := List Char

/-- `ParseError` (R111 to R113; spec/60_exceptions.md R209), with which of its reasons. -/
inductive ParseError where
  /-- token 0 is none of the nine keywords (R112) -/
  | unknownKeyword
  /-- the number of tokens is not the opcode's (R113) -/
  | wrongArity
  /-- an operand token is empty: two spaces in a row or a trailing space, in a line whose token count would be right
  (R111); log entry 15 -/
  | emptyToken
  deriving DecidableEq, Repr

/-- Split at every single space; a line always has at least one token, and tokens may be empty (R111). -/
def tokens : Line → List Line
  | [] => [[]]
  | c :: cs =>
    if c = ' ' then [] :: tokens cs
    else
      match tokens cs with
      | [] => [[c]]
      | t :: ts => (c :: t) :: ts

/-- The value of one or more decimal digits; nothing for any other text (R114). -/
def decimal? (cs : Line) : Option Nat :=
  if cs.isEmpty then none
  else if cs.all Char.isDigit then some (Nat.ofDigitChars 10 cs 0)
  else none

/-- What the assembler emits for a token that is neither a register nor a literal (R97, R114). -/
def malformed : Operand := .bad 0xFF 0

/-- `r<digits>`: a register index, saturating at `0xFFFFFFFF` (R114). -/
def registerToken (digits : Line) : Operand :=
  match decimal? digits with
  | some n => .reg (BitVec.ofNat 32 (min n 0xFFFFFFFF))
  | none => malformed

/-- A literal when its value is in `INT_MIN .. INT_MAX` (R114). -/
def literalOf (z : Int) : Operand := if intMin ≤ z ∧ z ≤ intMax then .lit (BitVec.ofInt 32 z) else malformed

/-- `-<digits>` (R114). -/
def negativeToken (digits : Line) : Operand :=
  match decimal? digits with
  | some n => literalOf (-(n : Int))
  | none => malformed

/-- `<digits>` (R114). -/
def plainToken (cs : Line) : Operand :=
  match decimal? cs with
  | some n => literalOf n
  | none => malformed

/-- `Enc(token)`: never fails; a token that is neither form is a malformed operand that faults when used (R114). -/
def operandOf : Line → Operand
  | 'r' :: digits => registerToken digits
  | '-' :: digits => negativeToken digits
  | cs => plainToken cs

/-- A three-operand line's instruction, if it has three operand tokens (R113). -/
def threeOperands (mk : Operand → Operand → Operand → Instr) : List Line → Except ParseError Instr
  | [a, b, c] => .ok (mk (operandOf a) (operandOf b) (operandOf c))
  | _ => .error .wrongArity

/-- A two-operand line's instruction, if it has two operand tokens (R113). -/
def twoOperands (mk : Operand → Operand → Instr) : List Line → Except ParseError Instr
  | [a, b] => .ok (mk (operandOf a) (operandOf b))
  | _ => .error .wrongArity

/-- The instruction of a keyword and its operand tokens. The match is exact and case-sensitive (R112). -/
def ofTokens : List Line → Except ParseError Instr
  | ['a', 'd', 'd'] :: ops => threeOperands .add ops
  | ['s', 'u', 'b'] :: ops => threeOperands .sub ops
  | ['m', 'u', 'l'] :: ops => threeOperands .mul ops
  | ['d', 'i', 'v'] :: ops => threeOperands .div ops
  | ['l', 'd'] :: ops => twoOperands .ld ops
  | ['s', 't', 'r'] :: ops => twoOperands .str ops
  | ['m', 'o', 'v'] :: ops => twoOperands .mov ops
  | ['c', 'm', 'p'] :: ops => twoOperands .cmp ops
  | ['j', 'm', 'p'] :: ops => twoOperands .jmp ops
  | _ => .error .unknownKeyword

/-- What the parser adds to the keyword and the count: an empty token (a leading, trailing or doubled space) ends in
`ParseError` whatever the token count (R111). Log entry 15. -/
def refuseEmpty (toks : List Line) (r : Except ParseError Instr) : Except ParseError Instr :=
  match r with
  | .error e => .error e
  | .ok i => if toks.any List.isEmpty then .error .emptyToken else .ok i

/-- The parser: the instruction of a line, or its `ParseError` (R110 to R114). -/
def parse (line : Line) : Except ParseError Instr := refuseEmpty (tokens line) (ofTokens (tokens line))

/-- `Asm(line)`: the instruction word of a line, by the keyword and the token count alone (R115). Log entry 15. -/
def asm (line : Line) : Except ParseError InstrWord :=
  match ofTokens (tokens line) with
  | .ok i => .ok (encode i)
  | .error e => .error e

/-- One line of a load: the parser must accept it (R111 to R113, R116), then the assembler gives its word (R115). -/
def loadLine (line : Line) : Except ParseError InstrWord :=
  match parse line with
  | .error e => .error e
  | .ok _ => asm line

/-- The words of a program, in order, or the error of the first line that does not parse: all or nothing (R116). -/
def asmAll : List Line → Except ParseError (List InstrWord)
  | [] => .ok []
  | l :: ls =>
    match loadLine l with
    | .error e => .error e
    | .ok w =>
      match asmAll ls with
      | .error e => .error e
      | .ok ws => .ok (w :: ws)

/-! ### The formatter (R118) -/

/-- A natural number in decimal, without leading zeros. -/
def natText (n : Nat) : Line := Nat.toDigits 10 n

/-- An integer in decimal, with `-` when negative. -/
def intText (z : Int) : Line := if z < 0 then '-' :: natText z.natAbs else natText z.natAbs

/-- An operand's text; a malformed one prints as `?`. -/
def operandText : Operand → Line
  | .lit value => intText value.toInt
  | .reg index => 'r' :: natText index.toNat
  | .bad _ _ => ['?']

/-- The assembler keyword of an instruction (R94). -/
def keyword : Instr → Line
  | .add _ _ _ => ['a', 'd', 'd']
  | .sub _ _ _ => ['s', 'u', 'b']
  | .mul _ _ _ => ['m', 'u', 'l']
  | .div _ _ _ => ['d', 'i', 'v']
  | .ld _ _ => ['l', 'd']
  | .str _ _ => ['s', 't', 'r']
  | .mov _ _ => ['m', 'o', 'v']
  | .cmp _ _ => ['c', 'm', 'p']
  | .jmp _ _ => ['j', 'm', 'p']

/-- The operands of an instruction in text order (R94); the ignored `OP3` is none of them. -/
def operands : Instr → List Operand
  | .add dst a b => [dst, a, b]
  | .sub dst a b => [dst, a, b]
  | .mul dst a b => [dst, a, b]
  | .div dst a b => [dst, a, b]
  | .ld addr dst => [addr, dst]
  | .str src addr => [src, addr]
  | .mov src dst => [src, dst]
  | .cmp target literal => [target, literal]
  | .jmp cond target => [cond, target]

/-- The operands' texts, each preceded by one space. -/
def operandsText : List Operand → Line
  | [] => []
  | op :: ops => ' ' :: (operandText op ++ operandsText ops)

/-- The canonical text of an instruction (R118). -/
def formatInstr (i : Instr) : Line := keyword i ++ operandsText (operands i)

/-- `Format(W)` for a word with a legal opcode (R118). -/
def format (w : InstrWord) : Option Line :=
  match decode w with
  | .ok i => some (formatInstr i)
  | .error _ => none

end Sys2Proof.Asm
end

