-- ==== Sys2Proof/Machine/HostPort.lean ====
section
/-! DEFINITION. What the host can do to the machine, and all it can do (spec/70_reset_and_hazards.md R245 to R250;
spec/60_exceptions.md R230 to R232). Every move happens between two steps (spec/20_memory.md R77). -/

namespace Sys2Proof.Machine

/-- `RESET`: everything at its reset value, the program and the run's constants as they were (spec/10_state.md R50;
R243). -/
def hostReset (s : State) : State :=
  { State.reset with imem := s.imem, trace := s.trace, overflowMode := s.overflowMode }

/-- `ACK`: in PAUSED it clears `PAUSED` and changes nothing else; in any other run state it does nothing (R231, R246). -/
def ack (s : State) : State := if s.runState = .paused then { s with paused := false } else s

/-- Why a load is refused. In each case nothing is loaded and no run starts. -/
inductive LoadError where
  /-- a line has no parse (spec/30_encoding.md R116; R247) -/
  | parseError (e : Asm.ParseError)
  /-- the program is longer than `IMEM_DEPTH`, which the host must not ask for (R248); log entry 14 -/
  | programTooLong
  deriving DecidableEq, Repr

/-- The loader and the release of `RESET`: the words placed, `PROG_LEN` set, `TRACE` chosen, and the machine in its reset
state (R245, steps 4 and 5). -/
def loadWords (ws : List InstrWord) (trace : Bool) (s : State) : State :=
  { hostReset s with imem := ws, trace := trace }

/-- The boot sequence (R245): assemble every line, all or nothing, then load. It may begin at any time, since `RESET`
may be asserted at any time (R246). -/
def boot (lines : List Asm.Line) (trace : Bool) (s : State) : Except LoadError State :=
  match Asm.asmAll lines with
  | .error e => .error (.parseError e)
  | .ok ws => if ws.length ≤ Config.imemDepth then .ok (loadWords ws trace s) else .error .programTooLong

/-- The host's moves that change state; there is no other (R246, R249). -/
inductive HostMove where
  | acknowledge
  | reset
  | load (lines : List Asm.Line) (trace : Bool)
  deriving DecidableEq, Repr

/-- The state after a host move; a load that fails makes none. -/
def hostMove (m : HostMove) (s : State) : Except LoadError State :=
  match m with
  | .acknowledge => .ok (ack s)
  | .reset => .ok (hostReset s)
  | .load lines trace => boot lines trace s

/-- What the inspection port shows (spec/10_state.md R45; R232). -/
structure Inspection where
  regs : Vector Word 12
  /-- `mem[0]` to `mem[47]`, in order -/
  mem : List Word
  /-- the full program listing -/
  program : List InstrWord
  pc : InstrIndex
  faultCause : BitVec 3
  /-- nothing while no fault is recorded: the spec leaves it unspecified to a reader then (spec/10_state.md R34) -/
  faultPc : Option InstrIndex
  /-- index and word of the last completed instruction, nothing before the first (spec/10_state.md R35, R50) -/
  last : Option (InstrIndex × InstrWord)
  /-- the text form of the last completed instruction (R231; spec/30_encoding.md R118) -/
  lastText : Option Asm.Line
  runState : RunState
  deriving DecidableEq, Repr

/-- Reading the inspection port: a function of the state that changes nothing (R232). -/
def inspect (s : State) : Inspection where
  regs := s.regs
  mem := (List.range memWords).map (memRead s.mem)
  program := s.imem
  pc := s.pc
  faultCause := s.faultCause
  faultPc := if s.faultCause = 0#3 then none else some s.faultPc
  last := if s.lastValid then some (s.lastPc, s.lastWord) else none
  lastText := if s.lastValid then Asm.format s.lastWord else none
  runState := s.runState

end Sys2Proof.Machine
end

