-- ==== Sys2Proof/Machine/Ports.lean ====
section
/-! DEFINITION. The ports an engine step uses and the output signals (spec/10_state.md R45, R46). Views of a step: no
state is held here and `step` does not depend on it (R45). The load port is `loadWords`, the inspection port `inspect`,
and the inputs are the host's moves, all in Machine/HostPort.lean. Log entry 17. -/

namespace Sys2Proof.Machine

/-- One access of a port whose index has `n` bits. -/
structure Access (n : Nat) where
  index : BitVec n
  data : Word
  deriving DecidableEq, Repr

/-- The register file access for a register-form operand whose index passed its check; none for any other, so that a port
never sees an index out of range (R45). -/
def regPort (s : State) (op : Operand) : Option (Access 4) :=
  match regIdx op with
  | .ok i => some { index := BitVec.ofNat 4 i.val, data := s.readReg i }
  | .error _ => none

/-- Register file read port A: OP1 of str, mov, cmp, jmp, and OP2 of add, sub, mul, div. -/
def readPortA (s : State) : Instr → Option (Access 4)
  | .add _ a _ => regPort s a
  | .sub _ a _ => regPort s a
  | .mul _ a _ => regPort s a
  | .div _ a _ => regPort s a
  | .ld _ _ => none
  | .str src _ => regPort s src
  | .mov src _ => regPort s src
  | .cmp target _ => regPort s target
  | .jmp cond _ => regPort s cond

/-- Register file read port B: OP3 of add, sub, mul, div. -/
def readPortB (s : State) : Instr → Option (Access 4)
  | .add _ _ b => regPort s b
  | .sub _ _ b => regPort s b
  | .mul _ _ b => regPort s b
  | .div _ _ b => regPort s b
  | .ld _ _ => none
  | .str _ _ => none
  | .mov _ _ => none
  | .cmp _ _ => none
  | .jmp _ _ => none

/-- The register file write port, in a step that does not fault: the destination, with what it holds in `t`, the state
after the instruction. -/
def regWritePort (t : State) : Instr → Option (Access 4)
  | .add dst _ _ => regPort t dst
  | .sub dst _ _ => regPort t dst
  | .mul dst _ _ => regPort t dst
  | .div dst _ _ => regPort t dst
  | .ld _ dst => regPort t dst
  | .str _ _ => none
  | .mov _ dst => regPort t dst
  | .cmp target _ => regPort t target
  | .jmp _ _ => none

/-- The main memory read port: `ld` only. -/
def memReadPort (s : State) : Instr → Option (Access 6)
  | .add _ _ _ => none
  | .sub _ _ _ => none
  | .mul _ _ _ => none
  | .div _ _ _ => none
  | .ld addr _ =>
    match regIdx addr with
    | .ok i => some { index := BitVec.ofNat 6 i.val, data := memRead s.mem i.val }
    | .error _ => none
  | .str _ _ => none
  | .mov _ _ => none
  | .cmp _ _ => none
  | .jmp _ _ => none

/-- The main memory access of a store's address literal. -/
def storePort (t : State) (addr : Operand) : Option (Access 6) :=
  match litVal addr with
  | .error _ => none
  | .ok n =>
    match storeIndex n with
    | .error _ => none
    | .ok a => some { index := BitVec.ofNat 6 a, data := memRead t.mem a }

/-- The main memory write port, in a step that does not fault: `str` only. -/
def memWritePort (t : State) : Instr → Option (Access 6)
  | .add _ _ _ => none
  | .sub _ _ _ => none
  | .mul _ _ _ => none
  | .div _ _ _ => none
  | .ld _ _ => none
  | .str _ addr => storePort t addr
  | .mov _ _ => none
  | .cmp _ _ => none
  | .jmp _ _ => none

/-- What a step does at the engine's ports. -/
structure PortUse where
  /-- the program memory fetch port: `pc` out, the instruction word in -/
  fetch : InstrIndex × InstrWord
  readA : Option (Access 4)
  readB : Option (Access 4)
  regWrite : Option (Access 4)
  memRead : Option (Access 6)
  memWrite : Option (Access 6)
  deriving DecidableEq, Repr

/-- The ports in a step that fetched `w`, decoded it to `i` and went from `s` to `t`. The write ports are enabled only
when the step did not fault. -/
def portUse (w : InstrWord) (i : Instr) (s t : State) : PortUse where
  fetch := (s.pc, w)
  readA := readPortA s i
  readB := readPortB s i
  regWrite := if t.faultCause = 0#3 then regWritePort t i else none
  memRead := memReadPort s i
  memWrite := if t.faultCause = 0#3 then memWritePort t i else none

/-- An illegal word is fetched and nothing of its operands looked at (R42). -/
def fetchOnly (w : InstrWord) (s : State) : PortUse where
  fetch := (s.pc, w)
  readA := none
  readB := none
  regWrite := none
  memRead := none
  memWrite := none

/-- The ports in the next step; nothing where no step is enabled. -/
def ports (s : State) : Option PortUse :=
  match step s, fetch s with
  | .next t, some w =>
    match decode w with
    | .ok i => some (portUse w i s t)
    | .error _ => some (fetchOnly w s)
  | _, _ => none

/-- The output signals (R46). -/
structure Outputs where
  running : Bool
  paused : Bool
  done : Bool
  faulted : Bool
  deriving DecidableEq, Repr

/-- The output signals mirror the run state (R43, R46). -/
def outputs (s : State) : Outputs where
  running := decide (s.runState = .running)
  paused := decide (s.runState = .paused)
  done := decide (s.runState = .done)
  faulted := decide (s.runState = .faulted)

end Sys2Proof.Machine
end

