-- ==== Sys2Proof/Safety.lean ====
section
/-! DEFINITION. What counts as a safe run: the invariant of the machine, a run that completes, and the states a booted
machine can come to. -/

namespace Sys2Proof.Machine

/-- What holds of every state that boot, steps and host moves can make, whatever the program. -/
structure StateInv (s : State) : Prop where
  /-- main memory is canonical: 48 words, each listed at most once (spec/20_memory.md R61) -/
  memory : s.mem.wf = true
  /-- `PROG_LEN <= IMEM_DEPTH` (spec/00_scope.md R12) -/
  program : s.progLen ≤ Config.imemDepth
  /-- `pc` never exceeds `2^31`, so `pc + 1` never wraps when a step is enabled (spec/10_state.md R32) -/
  pcRange : s.pc.toNat ≤ 2 ^ 31
  /-- a faulting step does not pause (spec/60_exceptions.md R231) -/
  faultNotPaused : s.faultCause ≠ 0#3 → s.paused = false
  /-- `pc` stays at the faulting instruction, which lies inside the program (spec/60_exceptions.md R210) -/
  faultAtPc : s.faultCause ≠ 0#3 → s.faultPc = s.pc ∧ s.pc.toNat < s.progLen
  /-- only a completed step of trace mode pauses (spec/60_exceptions.md R231) -/
  pausedInTrace : s.paused = true → s.trace = true ∧ s.lastValid = true
  /-- before the first completed step nothing has been written since reset (spec/10_state.md R50, R210) -/
  freshIsReset : s.lastValid = false → s.regs = State.reset.regs ∧ s.mem = State.reset.mem ∧ s.pc = State.reset.pc
  /-- `LAST_WORD` is the program's word at `LAST_PC`, a legal one (spec/10_state.md R35; spec/60_exceptions.md R202) -/
  lastInProgram : s.lastValid = true →
    s.imem[s.lastPc.toNat]? = some s.lastWord ∧ ∃ i, decode s.lastWord = .ok i

/-- The run has ended, and without a fault (spec/10_state.md R44; spec/60_exceptions.md R212). -/
def Completed (s : State) : Prop := s.runState = .done

/-- `t` can be reached from `s` by steps, acknowledgments and resets, with no new load. -/
inductive Reaches (s : State) : State → Prop where
  | refl : Reaches s s
  | step {t u : State} : Reaches s t → step t = .next u → Reaches s u
  | ack {t : State} : Reaches s t → Reaches s (ack t)
  | reset {t : State} : Reaches s t → Reaches s (hostReset t)

/-- What trace mode adds taken away: the same machine in batch mode, not paused (spec/60_exceptions.md R230). -/
def batchView (s : State) : State := { s with trace := false, paused := false }

/-- `k` steps, each followed by the host's acknowledgment: a trace-mode run whose host answers every pause. -/
def runAcked : Nat → State → Host.Outcome State Fault Refusal
  | 0, s => .next s
  | k + 1, s =>
    match step s with
    | .next t => runAcked k (ack t)
    | .fault r => .fault r
    | .refused r => .refused r

end Sys2Proof.Machine
end

