-- ==== Sys2Proof/Certificates/Slice0/Obligations.lean ====
section
/-! DEFINITION. The statements for the provers. `Sys2Proof.Claims` holds the words they are written in: states spelled
out field by field, so that a statement is read beside the spec and not beside the model's own helpers. -/

namespace Sys2Proof.Claims
open Sys2Proof.Machine

/-- `s` after fault entry with a cause code: `FAULT_CAUSE` and `FAULT_PC` recorded and nothing else changed (R210). -/
def faultedAt (s : State) (code : BitVec 3) : State := { s with faultCause := code, faultPc := s.pc }

/-- `s` with register `d` holding `v` and `pc` advanced by one, everything else as it was. -/
def wrote (s : State) (d : Fin 12) (v : Word) : State := { s with regs := s.regs.set d v, pc := s.pc + 1 }

/-- The exact integer fits a signed 32-bit integer (R15). -/
def Fits (z : Int) : Prop := intMin ≤ z ∧ z ≤ intMax

/-- A three-operand instruction's Syntax and Encoding: how its line is written (keyword, then three tokens without a
space in them, single spaces between), and which words are decoded to it. -/
def WrittenAs3 (kw : String) (opc : BitVec 8) (mk : Operand → Operand → Operand → Instr) : Prop :=
  (∀ ta tb tc : Asm.Line, ' ' ∉ ta → ' ' ∉ tb → ' ' ∉ tc →
    Asm.asm (kw.toList ++ ' ' :: (ta ++ ' ' :: (tb ++ ' ' :: tc))) =
      .ok (encode (mk (Asm.operandOf ta) (Asm.operandOf tb) (Asm.operandOf tc)))) ∧
  (∀ w : InstrWord, opcOf w = opc →
    decode w = .ok (mk (decodeOperand (op1Of w)) (decodeOperand (op2Of w)) (decodeOperand (op3Of w))))

/-- The same for a two-operand instruction. -/
def WrittenAs2 (kw : String) (opc : BitVec 8) (mk : Operand → Operand → Instr) : Prop :=
  (∀ ta tb : Asm.Line, ' ' ∉ ta → ' ' ∉ tb →
    Asm.asm (kw.toList ++ ' ' :: (ta ++ ' ' :: tb)) = .ok (encode (mk (Asm.operandOf ta) (Asm.operandOf tb)))) ∧
  (∀ w : InstrWord, opcOf w = opc → decode w = .ok (mk (decodeOperand (op1Of w)) (decodeOperand (op2Of w))))

/-- The operands of a three-operand instruction fault in the order OP1, OP2, OP3, whatever the operation (R130, R215). -/
def OperandFaults3 (mk : Operand → Operand → Operand → Instr) : Prop :=
  ∀ (s : State) (dst a b : Operand),
    (∀ c, regIdx dst = .error c → exec (mk dst a b) s = .next (faultedAt s c.code)) ∧
    (∀ d c, regIdx dst = .ok d → val s a = .error c → exec (mk dst a b) s = .next (faultedAt s c.code)) ∧
    (∀ d x c, regIdx dst = .ok d → val s a = .ok x → val s b = .error c →
      exec (mk dst a b) s = .next (faultedAt s c.code))

/-- What an operation with exact result `z` leaves once its operands are resolved: the result when it fits; otherwise
`ArithmeticOverflow` (code 6) or the low 32 bits, as `OVERFLOW_MODE` says (R131). -/
def Narrowed (i : Instr) (s : State) (d : Fin 12) (z : Int) : Prop :=
  (Fits z → ∃ r : Word, r.toInt = z ∧ exec i s = .next (wrote s d r)) ∧
  (¬ Fits z → s.overflowMode = .fault → exec i s = .next (faultedAt s 6)) ∧
  (¬ Fits z → s.overflowMode = .wrap →
    ∃ r : Word, r.toInt % 2 ^ 32 = z % 2 ^ 32 ∧ exec i s = .next (wrote s d r))

/-- add, sub and mul: operand faults in order, then the narrowed exact result of the two values. -/
def ArithmeticRule (mk : Operand → Operand → Operand → Instr) (op : Int → Int → Int) : Prop :=
  OperandFaults3 mk ∧
  ∀ (s : State) (dst a b : Operand) (d : Fin 12) (x y : Word),
    regIdx dst = .ok d → val s a = .ok x → val s b = .ok y →
    Narrowed (mk dst a b) s d (op x.toInt y.toInt)

/-- Everything but registers, memory, `pc` and the fault registers is as it was. -/
def RestKept (s t : State) : Prop :=
  t.lastValid = s.lastValid ∧ t.lastPc = s.lastPc ∧ t.lastWord = s.lastWord ∧ t.paused = s.paused ∧
  t.imem = s.imem ∧ t.trace = s.trace ∧ t.overflowMode = s.overflowMode

/-- The fault registers are as they were, unless the instruction faulted: then they are all that changed. -/
def FaultRegsKept (s t : State) : Prop :=
  (t.faultCause = s.faultCause ∧ t.faultPc = s.faultPc) ∨ ∃ c : Cause, t = faultedAt s c.code

/-- Every register but the one `dst` names is as it was (all of them where `dst` names none), and all of memory. -/
def OnlyRegisterWritten (dst : Operand) (s t : State) : Prop :=
  (∀ j : Fin 12, regIdx dst ≠ .ok j → t.readReg j = s.readReg j) ∧
  (∀ a : Nat, memRead t.mem a = memRead s.mem a) ∧ FaultRegsKept s t ∧ RestKept s t

/-- The codes an instruction may record (R216); `ArithmeticOverflow` in `fault` mode only. -/
def mayRaise (mode : OverflowMode) : Instr → List (BitVec 3)
  | .add _ _ _ => if mode = .fault then [2, 3, 6] else [2, 3]
  | .sub _ _ _ => if mode = .fault then [2, 3, 6] else [2, 3]
  | .mul _ _ _ => if mode = .fault then [2, 3, 6] else [2, 3]
  | .div _ _ _ => if mode = .fault then [2, 3, 4, 6] else [2, 3, 4]
  | .ld _ _ => [2, 3]
  | .str _ _ => [2, 3, 5]
  | .mov _ _ => [2, 3]
  | .cmp _ _ => [2, 3]
  | .jmp _ _ => [2, 3, 7]

/-- The instruction is a jump. -/
def isJump : Instr → Bool
  | .jmp _ _ => true
  | .add _ _ _ => false
  | .sub _ _ _ => false
  | .mul _ _ _ => false
  | .div _ _ _ => false
  | .ld _ _ => false
  | .str _ _ => false
  | .mov _ _ => false
  | .cmp _ _ => false

/-- The two states agree on everything but the words `mem[12]` to `mem[47]`. -/
def SameButHighMemory (s s' : State) : Prop :=
  s' = { s with mem := s'.mem } ∧ ∀ a : Nat, a < 12 → memRead s'.mem a = memRead s.mem a

/-- The keywords of the three-operand instructions (R93, R94). -/
def keywords3 : List Asm.Line := ["add".toList, "sub".toList, "mul".toList, "div".toList]

/-- The keywords of the two-operand instructions (R93, R94). -/
def keywords2 : List Asm.Line := ["ld".toList, "str".toList, "mov".toList, "cmp".toList, "jmp".toList]

/-- One or more decimal digits. -/
def IsDigits (ds : Asm.Line) : Prop := ds ≠ [] ∧ ∀ c ∈ ds, c.isDigit = true

/-- The value of a digit string, most significant digit first. -/
def digitsValue (ds : Asm.Line) : Int := Nat.ofDigitChars 10 ds 0

/-- A canonical operand token (R119): `r` and an index below `2^32`, or a literal in range, without leading zeros and
not `-0`. `Nat.toDigits 10` is the decimal numeral without leading zeros. -/
def CanonicalToken (tok : Asm.Line) : Prop :=
  (∃ n : Nat, n < 2 ^ 32 ∧ tok = 'r' :: Nat.toDigits 10 n) ∨
  (∃ n : Nat, n < 2 ^ 31 ∧ tok = Nat.toDigits 10 n) ∨
  (∃ n : Nat, 0 < n ∧ n ≤ 2 ^ 31 ∧ tok = '-' :: Nat.toDigits 10 n)

/-- A line of canonical tokens with canonical spacing and the keyword's arity. -/
def CanonicalLine (line : Asm.Line) : Prop :=
  (∃ kw ∈ keywords3, ∃ a b c, CanonicalToken a ∧ CanonicalToken b ∧ CanonicalToken c ∧
    line = kw ++ ' ' :: (a ++ ' ' :: (b ++ ' ' :: c))) ∨
  (∃ kw ∈ keywords2, ∃ a b, CanonicalToken a ∧ CanonicalToken b ∧ line = kw ++ ' ' :: (a ++ ' ' :: b))

/-- The parser fails on the line, and so does its load. -/
def Refused (line : Asm.Line) : Prop := ∃ e, Asm.parse line = .error e ∧ Asm.loadLine line = .error e

/-- The operand is not malformed. -/
def NotMalformed (op : Operand) : Prop := ∀ k p, op ≠ .bad k p

/-- A batch-mode outcome beside a trace-mode one: the same stop, or next states that differ in the pauses only. -/
def SameOutcome : Host.Outcome State Fault Refusal → Host.Outcome State Fault Refusal → Prop
  | .next t, .next u => batchView t = u
  | .fault r, .fault q => r = q
  | .refused r, .refused q => r = q
  | _, _ => False

/-- What an array of words holds at an index after one access of its write port. -/
def afterWrite {n : Nat} (port : Option (Access n)) (old : Nat → Word) (index : Nat) : Word :=
  match port with
  | some a => if a.index.toNat = index then a.data else old index
  | none => old index

end Sys2Proof.Claims

open Sys2Proof Sys2Proof.Machine Sys2Proof.Claims

/-! ### Encoding -/

/-- The worked encodings of spec/30_encoding.md section 7 decode to the instructions they stand for. -/
def Obligations.WorkedEncodingsDecode : Prop :=
  decode 0x01010000000201000000000100000001 = .ok (.add (.reg 2) (.reg 0) (.reg 1)) ∧
  decode 0x04010000000001000000010100000002 = .ok (.div (.reg 0) (.reg 1) (.reg 2)) ∧
  decode 0x060100000000000000000A0000000000 = .ok (.str (.reg 0) (.lit 10)) ∧
  decode 0x05010000000001000000010000000000 = .ok (.ld (.reg 0) (.reg 1)) ∧
  decode 0x08010000000000000000070000000000 = .ok (.cmp (.reg 0) (.lit 7)) ∧
  decode 0x09010000000000000000050000000000 = .ok (.jmp (.reg 0) (.lit 5)) ∧
  decode 0x01010000000000000000020000000003 = .ok (.add (.reg 0) (.lit 2) (.lit 3)) ∧
  decode 0x030100000006010000000400FFFFFFFE = .ok (.mul (.reg 6) (.reg 4) (.lit 0xFFFFFFFE)) ∧
  decode 0x010100000000FF000000000000000001 = .ok (.add (.reg 0) (.bad 0xFF 0) (.lit 1))

/-- R96: a word whose opcode is not 0x01 to 0x09 raises `IllegalOpcode` when executed, whatever its operand fields
hold; no other word does; and no word the assembler makes is such a word. -/
def Obligations.IllegalOpcodesFault : Prop :=
  (∀ (s : State) (w : InstrWord), s.runState = .running → fetch s = some w →
    ((opcOf w).toNat = 0 ∨ 10 ≤ (opcOf w).toNat) → step s = .next (faultedAt s 1)) ∧
  (∀ (s t : State) (w : InstrWord), fetch s = some w → 1 ≤ (opcOf w).toNat → (opcOf w).toNat ≤ 9 →
    step s = .next t → t.faultCause ≠ 1#3) ∧
  (∀ (line : Asm.Line) (w : InstrWord), Asm.asm line = .ok w → 1 ≤ (opcOf w).toNat ∧ (opcOf w).toNat ≤ 9)

/-- Decoding gives back every well-formed instruction that was encoded, each operand at every value (R91, R92, R94, R97). -/
def Obligations.DecodeGivesBackEncoded : Prop :=
  ∀ i : Instr, i.wf = true → decode (encode i) = .ok i

/-- The other direction: what a word decodes to is well-formed, and its encoding is the word again, up to the ignored
third operand of a two-operand instruction (R93, R95). -/
def Obligations.EncodeGivesBackDecoded : Prop :=
  ∀ (w : InstrWord) (i : Instr), decode w = .ok i →
    i.wf = true ∧ (encode i).extractLsb' 40 88 = w.extractLsb' 40 88 ∧ ((opcOf w).toNat ≤ 4 → encode i = w)

/-- R95: in a two-operand word `OP3` is not looked at, the behaviour does not depend on it (the record of the word itself
in `LAST_WORD` apart), and the assembler fills it with the literal 0. -/
def Obligations.ThirdFieldIgnored : Prop :=
  (∀ w w' : InstrWord, 5 ≤ (opcOf w).toNat → (opcOf w).toNat ≤ 9 → w.extractLsb' 40 88 = w'.extractLsb' 40 88 →
    decode w = decode w' ∧
    ∀ s t : State, runWord w s = .next t →
      ∃ t' : State, runWord w' s = .next t' ∧ t' = { t with lastWord := t'.lastWord }) ∧
  (∀ (line : Asm.Line) (w : InstrWord), Asm.asm line = .ok w → 5 ≤ (opcOf w).toNat → op3Of w = 0#40)

/-- R97, R100 to R103 on the 40-bit fields: the form is checked first, then a register's index, which is the whole
unsigned payload; a literal's value is the whole payload. -/
def Obligations.OperandFieldsResolve : Prop :=
  ∀ (s : State) (f : OperandField),
    (kindOf f ≠ 0x01#8 → regIdx (decodeOperand f) = .error .operandFormatError) ∧
    (kindOf f = 0x01#8 → 11 < (payOf f).toNat → regIdx (decodeOperand f) = .error .operandRangeError) ∧
    (kindOf f = 0x01#8 → ∀ h : (payOf f).toNat < 12, regIdx (decodeOperand f) = .ok ⟨(payOf f).toNat, h⟩) ∧
    (∀ c, regIdx (decodeOperand f) = .error c → regVal s (decodeOperand f) = .error c) ∧
    (∀ i, regIdx (decodeOperand f) = .ok i → regVal s (decodeOperand f) = .ok (s.readReg i)) ∧
    (kindOf f = 0x01#8 → val s (decodeOperand f) = regVal s (decodeOperand f)) ∧
    (kindOf f = 0x00#8 → val s (decodeOperand f) = .ok (payOf f)) ∧
    (kindOf f ≠ 0x00#8 → kindOf f ≠ 0x01#8 → val s (decodeOperand f) = .error .operandFormatError) ∧
    (kindOf f = 0x00#8 → litVal (decodeOperand f) = .ok (payOf f)) ∧
    (kindOf f ≠ 0x00#8 → litVal (decodeOperand f) = .error .operandFormatError)

/-! ### The instructions -/

/-- R134 (with R130, R131): `add`. -/
def Obligations.AddFollowsItsRule : Prop :=
  WrittenAs3 "add" 0x01 .add ∧ ArithmeticRule .add (· + ·)

/-- R135: `sub`, OP2 minus OP3. -/
def Obligations.SubFollowsItsRule : Prop :=
  WrittenAs3 "sub" 0x02 .sub ∧ ArithmeticRule .sub (· - ·)

/-- R136: `mul`. -/
def Obligations.MulFollowsItsRule : Prop :=
  WrittenAs3 "mul" 0x03 .mul ∧ ArithmeticRule .mul (· * ·)

/-- R137: `div`: operand faults in order, then `DivisionByZero` (code 4), then the narrowed quotient truncated toward
zero. -/
def Obligations.DivFollowsItsRule : Prop :=
  WrittenAs3 "div" 0x04 .div ∧ OperandFaults3 .div ∧
  ∀ (s : State) (dst a b : Operand) (d : Fin 12) (x y : Word),
    regIdx dst = .ok d → val s a = .ok x → val s b = .ok y →
    (y = 0#32 → exec (.div dst a b) s = .next (faultedAt s 4)) ∧
    (y ≠ 0#32 → Narrowed (.div dst a b) s d (x.toInt.sign * y.toInt.sign * ((x.toInt.natAbs / y.toInt.natAbs : Nat) : Int)))

/-- R133: the division law at every sign combination, for what `div` writes. -/
def Obligations.DivisionTruncatesTowardZero : Prop :=
  ∀ (s : State) (dst a b : Operand) (d : Fin 12) (x y : Word),
    regIdx dst = .ok d → val s a = .ok x → val s b = .ok y →
    (y = 0#32 → exec (.div dst a b) s = .next (faultedAt s 4)) ∧
    (y ≠ 0#32 → ¬ (x.toInt = intMin ∧ y.toInt = -1) →
      ∃ q : Word, exec (.div dst a b) s = .next (wrote s d q) ∧
        q.toInt.natAbs = x.toInt.natAbs / y.toInt.natAbs ∧
        (q.toInt < 0 ↔ ¬ (x.toInt < 0 ↔ y.toInt < 0) ∧ q.toInt ≠ 0)) ∧
    (x.toInt = intMin → y.toInt = -1 →
      (s.overflowMode = .fault → exec (.div dst a b) s = .next (faultedAt s 6)) ∧
      (s.overflowMode = .wrap → exec (.div dst a b) s = .next (wrote s d x)))

/-- R132: where the four operations can overflow, on the model's `fits32` and `tdiv`. -/
def Obligations.OverflowOnlyWhere : Prop :=
  ∀ x y : Word,
    (fits32 (x.toInt + y.toInt) = false → (x.toInt < 0 ↔ y.toInt < 0)) ∧
    (fits32 (x.toInt - y.toInt) = false → ¬ (x.toInt < 0 ↔ y.toInt < 0)) ∧
    (y ≠ 0#32 → (fits32 (tdiv x.toInt y.toInt) = false ↔ x.toInt = intMin ∧ y.toInt = -1))

/-- R151: `ld`. The register index of OP1 is the word index; no register value is read. -/
def Obligations.LoadFollowsItsRule : Prop :=
  WrittenAs2 "ld" 0x05 .ld ∧
  ∀ (s : State) (addr dst : Operand),
    (∀ c, regIdx addr = .error c → exec (.ld addr dst) s = .next (faultedAt s c.code)) ∧
    (∀ a c, regIdx addr = .ok a → regIdx dst = .error c → exec (.ld addr dst) s = .next (faultedAt s c.code)) ∧
    (∀ a d, regIdx addr = .ok a → regIdx dst = .ok d →
      exec (.ld addr dst) s = .next (wrote s d (memRead s.mem a.val)))

/-- R152: `str`. The literal is the word index, 0 to 47; outside it `OutOfRangeMemoryAccess` (code 5) and nothing
written. -/
def Obligations.StoreFollowsItsRule : Prop :=
  WrittenAs2 "str" 0x06 .str ∧
  ∀ (s : State) (src addr : Operand),
    (∀ c, regVal s src = .error c → exec (.str src addr) s = .next (faultedAt s c.code)) ∧
    (∀ v c, regVal s src = .ok v → litVal addr = .error c → exec (.str src addr) s = .next (faultedAt s c.code)) ∧
    (∀ v n, regVal s src = .ok v → litVal addr = .ok n → n.toInt < 0 ∨ 47 < n.toInt →
      exec (.str src addr) s = .next (faultedAt s 5)) ∧
    (∀ v n, regVal s src = .ok v → litVal addr = .ok n → 0 ≤ n.toInt → n.toInt ≤ 47 → s.mem.wf = true →
      ∃ m : Memory, exec (.str src addr) s = .next { s with mem := m, pc := s.pc + 1 } ∧ m.wf = true ∧
        memRead m n.toInt.toNat = v ∧ ∀ b : Nat, b ≠ n.toInt.toNat → memRead m b = memRead s.mem b)

/-- R166: `mov`, source first. -/
def Obligations.MoveFollowsItsRule : Prop :=
  WrittenAs2 "mov" 0x07 .mov ∧
  ∀ (s : State) (src dst : Operand),
    (∀ c, regVal s src = .error c → exec (.mov src dst) s = .next (faultedAt s c.code)) ∧
    (∀ v c, regVal s src = .ok v → regIdx dst = .error c → exec (.mov src dst) s = .next (faultedAt s c.code)) ∧
    (∀ v d, regVal s src = .ok v → regIdx dst = .ok d → exec (.mov src dst) s = .next (wrote s d v))

/-- R167: `cmp`: 1 for equal, 0 for unequal, into the compared register itself. -/
def Obligations.CompareFollowsItsRule : Prop :=
  WrittenAs2 "cmp" 0x08 .cmp ∧
  ∀ (s : State) (target literal : Operand),
    (∀ c, regIdx target = .error c → exec (.cmp target literal) s = .next (faultedAt s c.code)) ∧
    (∀ t c, regIdx target = .ok t → litVal literal = .error c →
      exec (.cmp target literal) s = .next (faultedAt s c.code)) ∧
    (∀ t k, regIdx target = .ok t → litVal literal = .ok k → (s.readReg t).toInt = k.toInt →
      exec (.cmp target literal) s = .next (wrote s t 1)) ∧
    (∀ t k, regIdx target = .ok t → litVal literal = .ok k → (s.readReg t).toInt ≠ k.toInt →
      exec (.cmp target literal) s = .next (wrote s t 0))

/-- R181, R182: `jmp`: taken when the register holds zero; a negative target faults (code 7) taken or not; the target is
the literal itself and is not compared with `PROG_LEN`. -/
def Obligations.JumpFollowsItsRule : Prop :=
  WrittenAs2 "jmp" 0x09 .jmp ∧
  ∀ (s : State) (cond target : Operand),
    (∀ c, regVal s cond = .error c → exec (.jmp cond target) s = .next (faultedAt s c.code)) ∧
    (∀ v c, regVal s cond = .ok v → litVal target = .error c →
      exec (.jmp cond target) s = .next (faultedAt s c.code)) ∧
    (∀ v n, regVal s cond = .ok v → litVal target = .ok n → n.toInt < 0 →
      exec (.jmp cond target) s = .next (faultedAt s 7)) ∧
    (∀ v n, regVal s cond = .ok v → litVal target = .ok n → 0 ≤ n.toInt → v.toInt = 0 →
      ∃ p : InstrIndex, (p.toNat : Int) = n.toInt ∧ exec (.jmp cond target) s = .next { s with pc := p }) ∧
    (∀ v n, regVal s cond = .ok v → litVal target = .ok n → 0 ≤ n.toInt → v.toInt ≠ 0 →
      exec (.jmp cond target) s = .next { s with pc := s.pc + 1 })

/-- R153: a store and then a load: the stored value when the literal is the load's register index, and otherwise what the
word loaded from held before. -/
def Obligations.StoreThenLoad : Prop :=
  ∀ (s : State) (src dst addr : Operand) (n : Word) (sr d a : Fin 12),
    s.mem.wf = true → regIdx src = .ok sr → regIdx addr = .ok a → regIdx dst = .ok d →
    0 ≤ n.toInt → n.toInt ≤ 47 →
    ∃ t u : State, exec (.str src (.lit n)) s = .next t ∧ exec (.ld addr dst) t = .next u ∧
      (n.toInt = (a.val : Int) → u.readReg d = s.readReg sr) ∧
      (n.toInt ≠ (a.val : Int) → u.readReg d = memRead s.mem a.val)

/-- R184: `cmp rT k` then `jmp rT L` goes to `L` when the register did not equal `k`, and falls through when it did. -/
def Obligations.CompareAndJumpIdiom : Prop :=
  ∀ (s : State) (r : Operand) (i : Fin 12) (k l : Word), regIdx r = .ok i → 0 ≤ l.toInt →
    ∃ t u : State, exec (.cmp r (.lit k)) s = .next t ∧ exec (.jmp r (.lit l)) t = .next u ∧
      ((s.readReg i).toInt ≠ k.toInt → (u.pc.toNat : Int) = l.toInt) ∧
      ((s.readReg i).toInt = k.toInt → u.pc = s.pc + 2)

/-- R120: `add rD k 0` loads the constant `k` and `add rD rD 0` changes nothing but `pc`, in both overflow modes. -/
def Obligations.ConstantAndNopIdioms : Prop :=
  ∀ (s : State) (dst : Operand) (d : Fin 12) (k : Word), regIdx dst = .ok d →
    exec (.add dst (.lit k) (.lit 0)) s = .next (wrote s d k) ∧
    exec (.add dst dst (.lit 0)) s = .next { s with pc := s.pc + 1 }

/-! ### Frames -/

/-- add, sub, mul, div write the register OP1 names, `pc`, and nothing else; when they fault, the fault registers only. -/
def Obligations.ArithmeticFrame : Prop :=
  ∀ (s t : State) (dst a b : Operand) (i : Instr),
    i = .add dst a b ∨ i = .sub dst a b ∨ i = .mul dst a b ∨ i = .div dst a b →
    exec i s = .next t → OnlyRegisterWritten dst s t

/-- ld and mov write the register OP2 names and cmp the one OP1 names, `pc`, and nothing else; no memory. -/
def Obligations.LoadMoveCompareFrame : Prop :=
  ∀ (s t : State) (op other : Operand) (i : Instr),
    i = .ld other op ∨ i = .mov other op ∨ i = .cmp op other →
    exec i s = .next t → OnlyRegisterWritten op s t

/-- str writes the word its literal names, `pc`, and nothing else: no register, and no other word of memory. -/
def Obligations.StoreFrame : Prop :=
  ∀ (s t : State) (src addr : Operand), exec (.str src addr) s = .next t →
    (∀ j : Fin 12, t.readReg j = s.readReg j) ∧
    (∀ (n : Word) (a : Nat), litVal addr = .ok n → storeIndex n = .ok a →
      ∀ b : Nat, b ≠ a → memRead t.mem b = memRead s.mem b) ∧
    ((∀ (n : Word) (a : Nat), litVal addr = .ok n → storeIndex n ≠ .ok a) →
      ∀ b : Nat, memRead t.mem b = memRead s.mem b) ∧
    FaultRegsKept s t ∧ RestKept s t

/-- jmp writes `pc` and nothing else; when it faults, the fault registers only. -/
def Obligations.JumpFrame : Prop :=
  ∀ (s t : State) (cond target : Operand), exec (.jmp cond target) s = .next t →
    (∀ j : Fin 12, t.readReg j = s.readReg j) ∧ (∀ a : Nat, memRead t.mem a = memRead s.mem a) ∧
    FaultRegsKept s t ∧ RestKept s t

/-! ### Registers and memory -/

/-- No register is special: each reads what was last written to it, and a write touches no other (R21, R22). -/
def Obligations.RegistersHoldWhatWasWritten : Prop :=
  ∀ (s : State) (i j : Fin 12) (v : Word),
    (s.writeReg i v).readReg j = if j = i then v else s.readReg j

/-- `MemRead` after `MemWrite`: the value written there, every other word as before, the canonical form kept (R63, R68). -/
def Obligations.MemoryReadsLastWrite : Prop :=
  ∀ (m : Memory) (a : Nat) (v : Word), m.wf = true → a < 48 →
    (memWrite m a v).wf = true ∧ memRead (memWrite m a v) a = v ∧
    ∀ b : Nat, b ≠ a → memRead (memWrite m a v) b = memRead m b

/-- The canonical form is canonical: two memories that read alike at the 48 indices are equal (the model's form, log
entry 1). -/
def Obligations.CanonicalMemoriesAreEqual : Prop :=
  ∀ m m' : Memory, m.wf = true → m'.wf = true → (∀ a : Nat, a < 48 → memRead m a = memRead m' a) → m = m'

/-! ### Faults -/

/-- The codes of the causes (R201). -/
def Obligations.FaultCodes : Prop :=
  Cause.code .illegalOpcode = 1 ∧ Cause.code .operandFormatError = 2 ∧ Cause.code .operandRangeError = 3 ∧
  Cause.code .divisionByZero = 4 ∧ Cause.code .outOfRangeMemoryAccess = 5 ∧ Cause.code .arithmeticOverflow = 6 ∧
  Cause.code .jumpTargetRange = 7

/-- R210, R211: a step that faults records the cause and the faulting index and changes nothing else, and no further step
is enabled. -/
def Obligations.FaultsArePrecise : Prop :=
  ∀ s t : State, step s = .next t → t.faultCause ≠ 0#3 →
    t = faultedAt s t.faultCause ∧ ∀ u : State, step t ≠ .next u

/-- R212: no step and no acknowledgment clears `FAULT_CAUSE` or makes a faulted machine go on; reset does clear it. -/
def Obligations.FaultsAreFinal : Prop :=
  (∀ s t : State, step s = .next t → s.faultCause = 0#3) ∧
  (∀ s : State, (ack s).faultCause = s.faultCause) ∧
  (∀ s : State, s.faultCause ≠ 0#3 → (∀ t : State, step s ≠ .next t) ∧ ack s = s) ∧
  (∀ s : State, (hostReset s).faultCause = 0#3)

/-- R216: which instruction can record which cause. -/
def Obligations.FaultMatrix : Prop :=
  ∀ (i : Instr) (s t : State), s.faultCause = 0#3 → exec i s = .next t → t.faultCause ≠ 0#3 →
    t.faultCause ∈ mayRaise s.overflowMode i ∧ t = faultedAt s t.faultCause

/-- R207: in `wrap` mode no step records `ArithmeticOverflow`, and in `fault` mode only add, sub, mul and div do. -/
def Obligations.OverflowFaultOnlyInFaultMode : Prop :=
  ∀ (s t : State) (w : InstrWord), step s = .next t → fetch s = some w → t.faultCause = 6#3 →
    s.overflowMode = .fault ∧ 1 ≤ (opcOf w).toNat ∧ (opcOf w).toNat ≤ 4

/-! ### The step and the run -/

/-- A step runs the decoded instruction: `step` is `exec` of what the word at `pc` decodes to, with the end of the step
around it; and `withFetchWord` (the model's stand-in for a load, log entry 5) places the word there. -/
def Obligations.StepRunsDecodedInstruction : Prop :=
  (∀ (s t : State) (w : InstrWord) (i : Instr), s.faultCause = 0#3 → s.paused = false →
    s.imem[s.pc.toNat]? = some w → decode w = .ok i → exec i s = .next t →
    step s = .next (if t.faultCause = 0#3
      then { t with lastValid := true, lastPc := s.pc, lastWord := w, paused := t.trace } else t)) ∧
  (∀ (s : State) (n : Nat), n < 2 ^ 128 →
    (s.withFetchWord 128 n).imem[(s.withFetchWord 128 n).pc.toNat]? = some (BitVec.ofNat 128 n) ∧
    (s.withFetchWord 128 n).faultCause = 0#3 ∧ (s.withFetchWord 128 n).paused = false)

/-- R40: the step is enabled exactly when no fault is recorded, `pc < PROG_LEN` and the machine is not paused; then it
fetches, decodes, executes, and either records the instruction as the last completed and pauses in trace mode, or records
the fault and changes nothing else. It never refuses. -/
def Obligations.StepFollowsItsRule : Prop :=
  ∀ s : State,
    ((∃ t, step s = .next t) ↔ s.faultCause = 0#3 ∧ s.pc.toNat < s.progLen ∧ s.paused = false) ∧
    (∀ r, step s ≠ .refused r) ∧
    (∀ w t, s.imem[s.pc.toNat]? = some w → step s = .next t →
      (((opcOf w).toNat = 0 ∨ 10 ≤ (opcOf w).toNat) ∧ t = faultedAt s 1) ∨
      (1 ≤ (opcOf w).toNat ∧ (opcOf w).toNat ≤ 9 ∧ ∃ i u, decode w = .ok i ∧ exec i s = .next u ∧
        ((u.faultCause = 0#3 ∧
            t = { u with lastValid := true, lastPc := s.pc, lastWord := w, paused := s.trace }) ∨
          (u.faultCause ≠ 0#3 ∧ t = u ∧ t = faultedAt s t.faultCause))))

/-- R43, R50: the four run states, their conditions, what can happen next in each, and the
run state after reset. The names of the stops are the model's choice (log entry 7). -/
def Obligations.RunStatesDecideWhatHappens : Prop :=
  ∀ s : State,
    (s.runState = .faulted ↔ s.faultCause ≠ 0#3) ∧
    (s.runState = .done ↔ s.faultCause = 0#3 ∧ s.progLen ≤ s.pc.toNat ∧ s.paused = false) ∧
    (s.runState = .paused ↔ s.faultCause = 0#3 ∧ s.paused = true) ∧
    (s.runState = .running ↔ s.faultCause = 0#3 ∧ s.pc.toNat < s.progLen ∧ s.paused = false) ∧
    (s.runState = .faulted → step s = .fault .runFaulted ∧ ack s = s) ∧
    (s.runState = .done → step s = .fault .runDone ∧ ack s = s) ∧
    (s.runState = .paused → step s = .fault .awaitingAck ∧
      ((ack s).runState = .running ∨ (ack s).runState = .done)) ∧
    (s.runState = .running → ∃ t, step s = .next t) ∧
    (0 < s.progLen → (hostReset s).runState = .running) ∧ (s.progLen = 0 → (hostReset s).runState = .done)

/-- R31: how a step moves `pc`. -/
def Obligations.PcAdvances : Prop :=
  ∀ (s t : State) (w : InstrWord) (i : Instr), fetch s = some w → decode w = .ok i → step s = .next t →
    (t.faultCause ≠ 0#3 → t.pc = s.pc) ∧
    (t.faultCause = 0#3 → isJump i = false → t.pc = s.pc + 1) ∧
    (∀ cond target, t.faultCause = 0#3 → i = .jmp cond target →
      ∃ v n, regVal s cond = .ok v ∧ litVal target = .ok n ∧
        (v = 0#32 → (t.pc.toNat : Int) = n.toInt) ∧ (v ≠ 0#32 → t.pc = s.pc + 1))

/-- R32: in the states of a run `pc + 1` never wraps, and a taken jump's target fits. -/
def Obligations.PcNeverWraps : Prop :=
  ∀ (s t : State) (w : InstrWord) (i : Instr), StateInv s → fetch s = some w → decode w = .ok i → step s = .next t →
    t.faultCause = 0#3 → t.pc.toNat = s.pc.toNat + 1 ∨ (isJump i = true ∧ t.pc.toNat < 2 ^ 31)

/-- R35: what a completed step records, and that a faulting one does not; the text form shown in trace mode is that
of the recorded word; no instruction reads what was recorded; reset clears `LAST_VALID`. -/
def Obligations.LastInstructionRecorded : Prop :=
  (∀ (s t : State) (w : InstrWord), step s = .next t → fetch s = some w →
    (t.faultCause = 0#3 → t.lastValid = true ∧ t.lastPc = s.pc ∧ t.lastWord = w) ∧
    (t.faultCause ≠ 0#3 → t.lastValid = s.lastValid ∧ t.lastPc = s.lastPc ∧ t.lastWord = s.lastWord)) ∧
  (∀ s : State, s.trace = true → s.lastValid = true → (inspect s).lastText = Asm.format s.lastWord) ∧
  (∀ (i : Instr) (s t : State) (b : Bool) (p : InstrIndex) (w : InstrWord), exec i s = .next t →
    exec i { s with lastValid := b, lastPc := p, lastWord := w } =
      .next { t with lastValid := b, lastPc := p, lastWord := w }) ∧
  (∀ s : State, (hostReset s).lastValid = false)

/-- R231: in trace mode every completed step pauses and shows the instruction's text and both memory regions, a faulting
one does not pause; a paused machine takes no step, and the acknowledgment clears `PAUSED` and nothing else. -/
def Obligations.TracePauses : Prop :=
  (∀ s t : State, step s = .next t →
    (t.faultCause = 0#3 → t.paused = s.trace) ∧ (t.faultCause ≠ 0#3 → t.paused = false)) ∧
  (∀ (s t : State) (w : InstrWord) (i : Instr), step s = .next t → fetch s = some w → decode w = .ok i →
    s.trace = true → t.faultCause = 0#3 → (inspect t).lastText = some (Asm.formatInstr i) ∧ (inspect t).regs = t.regs ∧
      (inspect t).mem.length = 48 ∧ ∀ a : Nat, a < 48 → (inspect t).mem[a]? = some (memRead t.mem a)) ∧
  (∀ s : State, s.paused = true → (∀ t, step s ≠ .next t) ∧
    (s.faultCause = 0#3 → ack s = { s with paused := false })) ∧
  (∀ s : State, s.paused = false → ack s = s)

/-- R230: a trace-mode run whose host acknowledges every pause goes through the same states as the batch-mode run, the
pauses apart, and stops in the same way. -/
def Obligations.TraceAndBatchRunsAgree : Prop :=
  ∀ (k : Nat) (s : State), s.paused = false → SameOutcome (runAcked k s) (Sys2Proof.core.run k (batchView s))

/-- R75: the program never changes; the word fetched at an index is the same every time. -/
def Obligations.ProgramIsImmutable : Prop :=
  ∀ s t : State, Reaches s t →
    t.imem = s.imem ∧ (t.pc = s.pc → fetch t = fetch s)

/-- R64: the words `mem[12]` to `mem[47]` are read back by no instruction: two states that differ only there step alike
and differ only there again. (Both memories in the canonical form, which every state of a run has.) -/
def Obligations.HighMemoryIsUnreadable : Prop :=
  ∀ s s' t : State, s.mem.wf = true → s'.mem.wf = true → SameButHighMemory s s' → step s = .next t →
    ∃ t', step s' = .next t' ∧ SameButHighMemory t t'

/-- R44: a batch-mode run stops in exactly two ways, at `pc >= PROG_LEN` without a fault or by a fault, and is never
refused; an empty program has ended at reset. The names of the stops are the model's choice (log entry 7). -/
def Obligations.BatchRunsEndInTwoWays : Prop :=
  (∀ (k : Nat) (s : State), s.trace = false → s.paused = false →
    (∀ r, Sys2Proof.core.run k s ≠ .refused r) ∧
    (∀ q, Sys2Proof.core.run k s = .fault q →
      ∃ (j : Nat) (u : State), j < k ∧ Sys2Proof.core.run j s = .next u ∧
        ((q = Fault.runDone ∧ u.faultCause = 0#3 ∧ u.progLen ≤ u.pc.toNat) ∨
          (q = Fault.runFaulted ∧ u.faultCause ≠ 0#3)))) ∧
  (∀ s : State, s.imem = [] → Completed (hostReset s))

/-! ### Reset, the invariant, the host -/

/-- R241, R243: the values after reset that the spec states; reset keeps the program; `State.reset` is such a state. -/
def Obligations.ResetValues : Prop :=
  ∀ s : State,
    (∀ i : Fin 12, (hostReset s).readReg i = 0) ∧ (∀ a : Nat, memRead (hostReset s).mem a = 0) ∧
    (hostReset s).pc = 0 ∧ (hostReset s).faultCause = 0#3 ∧ (hostReset s).faultPc = 0 ∧
    (hostReset s).lastValid = false ∧ (hostReset s).paused = false ∧
    (hostReset s).imem = s.imem ∧ (hostReset s).progLen = s.progLen ∧ hostReset State.reset = State.reset

/-- The invariant holds at reset. -/
def Obligations.ResetMeetsInvariant : Prop := StateInv State.reset

/-- The invariant is kept by every step. -/
def Obligations.StepKeepsInvariant : Prop :=
  ∀ s t : State, StateInv s → step s = .next t → StateInv t

/-- The invariant is kept by every host move; a load establishes it from any state. -/
def Obligations.HostMovesKeepInvariant : Prop :=
  (∀ (s t : State) (m : HostMove), StateInv s → hostMove m s = .ok t → StateInv t) ∧
  (∀ (s t : State) (lines : List Asm.Line) (trace : Bool), boot lines trace s = .ok t → StateInv t)

/-- A program a conforming loader placed never raises `IllegalOpcode` (R202, R247). -/
def Obligations.BootedMachineNeverMeetsIllegalOpcode : Prop :=
  ∀ (s0 s t : State) (lines : List Asm.Line) (trace : Bool),
    boot lines trace s0 = .ok s → Reaches s t → t.faultCause ≠ 1#3

/-- R247, R245: the load is all or nothing, word `i` is line `i`'s, and the machine is then in its reset state. -/
def Obligations.LoadIsAllOrNothing : Prop :=
  ∀ (s : State) (lines : List Asm.Line) (trace : Bool),
    ((∃ l ∈ lines, ∃ e, Asm.parse l = .error e) → ∃ e, boot lines trace s = .error (.parseError e)) ∧
    ((∀ l ∈ lines, ∃ i, Asm.parse l = .ok i) → lines.length ≤ Config.imemDepth →
      ∃ t, boot lines trace s = .ok t) ∧
    (∀ t, boot lines trace s = .ok t →
      t = { State.reset with lastPc := t.lastPc, lastWord := t.lastWord, imem := t.imem, trace := trace,
                             overflowMode := t.overflowMode } ∧
      t.progLen = lines.length ∧ t.progLen ≤ Config.imemDepth ∧
      (∀ (k : Nat) (l : Asm.Line), lines[k]? = some l →
        ∃ i, Asm.parse l = .ok i ∧ Asm.asm l = .ok (encode i) ∧ t.imem[k]? = some (encode i)) ∧
      (∀ w ∈ t.imem, ∃ i, decode w = .ok i))

/-- R232, R34, R45: what the inspection port shows: registers, all of memory, the program, `pc`, the fault registers, the run
state, and the last completed instruction while `LAST_VALID = 1`. That it shows no `FAULT_PC` while no fault is recorded
and no last instruction while `LAST_VALID = 0`, and that it shows the instruction's text in batch mode too, is the model's
DESIGN CHOICE, log entry 13. -/
def Obligations.InspectionShowsState : Prop :=
  ∀ s : State,
    (∀ a : Nat, a < 48 → (inspect s).mem[a]? = some (memRead s.mem a)) ∧ (inspect s).mem.length = 48 ∧
    (inspect s).regs = s.regs ∧ (inspect s).program = s.imem ∧ (inspect s).pc = s.pc ∧
    (inspect s).faultCause = s.faultCause ∧
    (inspect s).runState = s.runState ∧
    (s.faultCause ≠ 0#3 → (inspect s).faultPc = some s.faultPc) ∧ (s.faultCause = 0#3 → (inspect s).faultPc = none) ∧
    (s.lastValid = true → (inspect s).last = some (s.lastPc, s.lastWord) ∧
      (inspect s).lastText = Asm.format s.lastWord) ∧
    (s.lastValid = false → (inspect s).last = none ∧ (inspect s).lastText = none)

/-- R45: the ports tell the whole step: the fetch port reads the word at `pc`; a read port returns what its register or
word held before the step; registers and memory after the step are those before it with at most the one write of each
write port; a step that faults enables no write port; and never both in one step. -/
def Obligations.PortsCarryTheStep : Prop :=
  ∀ s t : State, step s = .next t → ∃ p : PortUse, ports s = some p ∧
    p.fetch.1 = s.pc ∧ fetch s = some p.fetch.2 ∧
    (∀ a, p.readA = some a ∨ p.readB = some a → ∃ j : Fin 12, a.index.toNat = j.val ∧ a.data = s.readReg j) ∧
    (∀ a, p.memRead = some a → a.index.toNat < 12 ∧ a.data = memRead s.mem a.index.toNat) ∧
    (∀ j : Fin 12, t.readReg j = afterWrite p.regWrite (fun k => if h : k < 12 then s.readReg ⟨k, h⟩ else 0) j.val) ∧
    (∀ a : Nat, memRead t.mem a = afterWrite p.memWrite (memRead s.mem) a) ∧
    (t.faultCause ≠ 0#3 → p.regWrite = none ∧ p.memWrite = none) ∧
    (p.regWrite = none ∨ p.memWrite = none)

/-- R46: exactly one of the four output signals is on, the run state's. -/
def Obligations.OutputsMirrorRunState : Prop :=
  ∀ s : State, ((outputs s).running = true ↔ s.runState = .running) ∧ ((outputs s).paused = true ↔ s.runState = .paused) ∧
    ((outputs s).done = true ↔ s.runState = .done) ∧ ((outputs s).faulted = true ↔ s.runState = .faulted)

/-! ### Assembler and formatter -/

/-- R111: splitting at single spaces: the tokens hold no space and, joined by single spaces, are the line. -/
def Obligations.TokensSplitAtSingleSpaces : Prop :=
  ∀ line : Asm.Line, Asm.tokens line ≠ [] ∧ (∀ t ∈ Asm.tokens line, ' ' ∉ t) ∧
    List.intercalate [' '] (Asm.tokens line) = line

/-- R112, R113, R115: `Asm` fails on a line exactly for its keyword or its token count, and otherwise gives the word of its
keyword's instruction over its operand tokens. What the load adds for empty tokens (R111) is in
`EmptyTokensAreRefused`. -/
def Obligations.AssemblerFollowsItsRule : Prop :=
  ∀ (line kw : Asm.Line) (ops : List Asm.Line), Asm.tokens line = kw :: ops →
    (kw ∉ keywords3 → kw ∉ keywords2 → ∃ e, Asm.asm line = .error e) ∧
    (kw ∈ keywords3 → ops.length ≠ 3 → ∃ e, Asm.asm line = .error e) ∧
    (kw ∈ keywords2 → ops.length ≠ 2 → ∃ e, Asm.asm line = .error e) ∧
    ((kw ∈ keywords3 ∧ ops.length = 3) ∨ (kw ∈ keywords2 ∧ ops.length = 2) →
      ∃ i : Instr, Asm.asm line = .ok (encode i) ∧ Asm.keyword i = kw ∧ Asm.operands i = ops.map Asm.operandOf)

/-- R111 in the parser and the load: a line with an empty token (a leading space, a trailing one, two in a row, the empty
line) ends in `ParseError` whatever its token count; every other line loads exactly when it assembles, to the same word.
That the check is the parser's and not part of `Asm` (R115) is the model's reading: log entry 15. -/
def Obligations.EmptyTokensAreRefused : Prop :=
  (∀ rest : Asm.Line, Refused (' ' :: rest)) ∧ (∀ pre : Asm.Line, Refused (pre ++ [' '])) ∧
  (∀ pre post : Asm.Line, Refused (pre ++ ' ' :: ' ' :: post)) ∧ Refused [] ∧
  (∀ line : Asm.Line, [] ∉ Asm.tokens line → Asm.loadLine line = Asm.asm line)

/-- R114: what each operand token is encoded as, whatever it is; a line with a malformed one loads, and faults when it is
executed. -/
def Obligations.OperandTokensEncode : Prop :=
  (∀ ds : Asm.Line, IsDigits ds →
    (digitsValue ds ≤ 0xFFFFFFFF → ∃ n : BitVec 32, Asm.operandOf ('r' :: ds) = .reg n ∧ (n.toNat : Int) = digitsValue ds) ∧
    (0xFFFFFFFF < digitsValue ds → Asm.operandOf ('r' :: ds) = .reg 0xFFFFFFFF) ∧
    (digitsValue ds ≤ intMax → ∃ v : Word, Asm.operandOf ds = .lit v ∧ v.toInt = digitsValue ds) ∧
    (intMax < digitsValue ds → Asm.operandOf ds = .bad 0xFF 0) ∧
    (intMin ≤ -digitsValue ds → ∃ v : Word, Asm.operandOf ('-' :: ds) = .lit v ∧ v.toInt = -digitsValue ds) ∧
    (-digitsValue ds < intMin → Asm.operandOf ('-' :: ds) = .bad 0xFF 0)) ∧
  (∀ tok : Asm.Line, (∀ ds, IsDigits ds → tok ≠ 'r' :: ds ∧ tok ≠ ds ∧ tok ≠ '-' :: ds) →
    Asm.operandOf tok = .bad 0xFF 0) ∧
  (∃ w i, Asm.asm "add r0 foo 1".toList = .ok w ∧ decode w = .ok i ∧ ∀ s : State, exec i s = .next (faultedAt s 2))

/-- R118, R119: the text of an instruction without malformed operands assembles to its word again, and loads. -/
def Obligations.FormattedTextAssemblesBack : Prop :=
  ∀ i : Instr, (∀ op ∈ Asm.operands i, NotMalformed op) →
    Asm.asm (Asm.formatInstr i) = .ok (encode i) ∧ Asm.loadLine (Asm.formatInstr i) = .ok (encode i)

/-- R119: every canonical line loads and `format` after `parse` reproduces it; any other line that assembles gives a spelling that
assembles to the same word, a canonical one when no token is malformed; a malformed token is printed as `?`. -/
def Obligations.CanonicalLinesRoundTrip : Prop :=
  (∀ line : Asm.Line, CanonicalLine line →
    ∃ w, Asm.asm line = .ok w ∧ Asm.loadLine line = .ok w ∧ Asm.format w = some line) ∧
  (∀ (line : Asm.Line) (w : InstrWord) (i : Instr), Asm.asm line = .ok w → decode w = .ok i →
    ∃ line', Asm.format w = some line' ∧ Asm.asm line' = .ok w ∧
      ((∀ op ∈ Asm.operands i, NotMalformed op) → CanonicalLine line')) ∧
  (∀ (k : BitVec 8) (p : BitVec 32), Asm.operandText (.bad k p) = ['?'])
end

