-- ==== Sys2Proof/Laws/Encoding.lean ====
section
/-! SUPPORT. Fields of packed words, and the operand round trip. -/

namespace Sys2Proof

section Pack
variable (opc : BitVec 8) (f1 f2 f3 : OperandField)

@[simp] theorem opcOf_packWord : opcOf (packWord opc f1 f2 f3) = opc := by
  apply BitVec.eq_of_getLsbD_eq
  intro i hi
  simp only [opcOf, packWord, BitVec.getLsbD_extractLsb', BitVec.getLsbD_append]
  have e1 : ¬ (120 + i < 40) := by omega
  have e2 : ¬ (120 + i - 40 < 40) := by omega
  have e3 : ¬ (120 + i - 40 - 40 < 40) := by omega
  have e4 : 120 + i - 40 - 40 - 40 = i := by omega
  simp [e1, e2, e3, e4, hi]

@[simp] theorem op1Of_packWord : op1Of (packWord opc f1 f2 f3) = f1 := by
  apply BitVec.eq_of_getLsbD_eq
  intro i hi
  simp only [op1Of, packWord, BitVec.getLsbD_extractLsb', BitVec.getLsbD_append]
  have e1 : ¬ (80 + i < 40) := by omega
  have e2 : ¬ (80 + i - 40 < 40) := by omega
  have e4 : 80 + i - 40 - 40 = i := by omega
  simp [e1, e2, e4, hi]

@[simp] theorem op2Of_packWord : op2Of (packWord opc f1 f2 f3) = f2 := by
  apply BitVec.eq_of_getLsbD_eq
  intro i hi
  simp only [op2Of, packWord, BitVec.getLsbD_extractLsb', BitVec.getLsbD_append]
  have e1 : ¬ (40 + i < 40) := by omega
  have e3 : 40 + i - 40 = i := by omega
  simp [e1, e3, hi]

@[simp] theorem op3Of_packWord : op3Of (packWord opc f1 f2 f3) = f3 := by
  apply BitVec.eq_of_getLsbD_eq
  intro i hi
  simp only [op3Of, packWord, BitVec.getLsbD_extractLsb', BitVec.getLsbD_append]
  simp [hi]

end Pack

/-- A word is its opcode and its three operand fields. -/
theorem packWord_fields (w : InstrWord) : packWord (opcOf w) (op1Of w) (op2Of w) (op3Of w) = w := by
  apply BitVec.eq_of_getLsbD_eq
  intro i hi
  simp only [opcOf, op1Of, op2Of, op3Of, packWord, BitVec.getLsbD_extractLsb', BitVec.getLsbD_append]
  by_cases h1 : i < 40
  · simp [h1]
  · by_cases h2 : i - 40 < 40
    · have e : 40 + (i - 40) = i := by omega
      simp [h1, h2, e]
    · by_cases h3 : i - 40 - 40 < 40
      · have e : 80 + (i - 40 - 40) = i := by omega
        simp [h1, h2, h3, e]
      · have e : 120 + (i - 40 - 40 - 40) = i := by omega
        have h4 : i - 40 - 40 - 40 < 8 := by omega
        simp [h1, h2, h3, h4, e]

section Field
variable (k : BitVec 8) (p : BitVec 32)

@[simp] theorem kindOf_append : kindOf (k ++ p : BitVec 40) = k := by
  apply BitVec.eq_of_getLsbD_eq
  intro i hi
  simp only [kindOf, BitVec.getLsbD_extractLsb', BitVec.getLsbD_append]
  have e1 : ¬ (32 + i < 32) := by omega
  have e2 : 32 + i - 32 = i := by omega
  simp [e1, e2, hi]

@[simp] theorem payOf_append : payOf (k ++ p : BitVec 40) = p := by
  apply BitVec.eq_of_getLsbD_eq
  intro i hi
  simp only [payOf, BitVec.getLsbD_extractLsb', BitVec.getLsbD_append]
  simp [hi]

end Field

/-- A field is its kind and its payload. -/
theorem kindOf_append_payOf (f : OperandField) : (kindOf f ++ payOf f : BitVec 40) = f := by
  apply BitVec.eq_of_getLsbD_eq
  intro i hi
  simp only [kindOf, payOf, BitVec.getLsbD_extractLsb', BitVec.getLsbD_append]
  by_cases h1 : i < 32
  · simp [h1]
  · have e : 32 + (i - 32) = i := by omega
    have h2 : i - 32 < 8 := by omega
    simp [h1, h2, e]

/-- A field of kind `0x00` is a literal. -/
theorem decodeOperand_lit {f : OperandField} (h : kindOf f = 0x00#8) : decodeOperand f = .lit (payOf f) := by
  simp [decodeOperand, h]

/-- A field of kind `0x01` is in register form. -/
theorem decodeOperand_reg {f : OperandField} (h : kindOf f = 0x01#8) : decodeOperand f = .reg (payOf f) := by
  simp [decodeOperand, h]

/-- A field of any other kind is malformed. -/
theorem decodeOperand_bad {f : OperandField} (h0 : kindOf f ≠ 0x00#8) (h1 : kindOf f ≠ 0x01#8) :
    decodeOperand f = .bad (kindOf f) (payOf f) := by
  simp [decodeOperand, h0, h1]

/-- A well-formed operand is read back from its field. -/
theorem decodeOperand_encodeOperand {op : Operand} (h : op.wf = true) : decodeOperand (encodeOperand op) = op := by
  cases op with
  | lit v => rw [decodeOperand_lit (by simp [encodeOperand])]; simp [encodeOperand]
  | reg n => rw [decodeOperand_reg (by simp [encodeOperand])]; simp [encodeOperand]
  | bad k p =>
    simp only [Operand.wf, decide_eq_true_eq] at h
    have h0 : k ≠ 0x00#8 := by rintro rfl; simp at h
    have h1 : k ≠ 0x01#8 := by rintro rfl; simp at h
    rw [decodeOperand_bad (by simpa [encodeOperand] using h0) (by simpa [encodeOperand] using h1)]
    simp [encodeOperand]

/-- A field is the encoding of the operand it decodes to. -/
theorem encodeOperand_decodeOperand (f : OperandField) : encodeOperand (decodeOperand f) = f := by
  have hf := kindOf_append_payOf f
  by_cases h0 : kindOf f = 0x00#8
  · rw [decodeOperand_lit h0, encodeOperand, ← h0]; exact hf
  · by_cases h1 : kindOf f = 0x01#8
    · rw [decodeOperand_reg h1, encodeOperand, ← h1]; exact hf
    · rw [decodeOperand_bad h0 h1, encodeOperand]; exact hf

/-- What a field decodes to is well-formed. -/
theorem decodeOperand_wf (f : OperandField) : (decodeOperand f).wf = true := by
  by_cases h0 : kindOf f = 0x00#8
  · rw [decodeOperand_lit h0]; rfl
  · by_cases h1 : kindOf f = 0x01#8
    · rw [decodeOperand_reg h1]; rfl
    · rw [decodeOperand_bad h0 h1]
      simp only [Operand.wf, decide_eq_true_eq]
      have h0' : (kindOf f).toNat ≠ 0 := fun e => h0 (BitVec.eq_of_toNat_eq (by simpa using e))
      have h1' : (kindOf f).toNat ≠ 1 := fun e => h1 (BitVec.eq_of_toNat_eq (by simpa using e))
      omega

end Sys2Proof
end

