-- ==== Sys2Proof/Laws/Asm.lean ====
section
/-! SUPPORT. Tokens, numerals, and what the assembler does with each. -/

namespace Sys2Proof.Asm

/-! ### Tokens -/

/-- A line always has a first token. -/
theorem tokens_ne_nil (line : Line) : tokens line ≠ [] := by
  cases line with
  | nil => simp [tokens]
  | cons c cs =>
    unfold tokens
    split
    · simp
    · split <;> simp

/-- A text without spaces is one token. -/
theorem tokens_of_no_space {t : Line} (h : ' ' ∉ t) : tokens t = [t] := by
  induction t with
  | nil => rfl
  | cons c cs ih =>
    simp only [List.mem_cons, not_or] at h
    have hc : ¬ c = ' ' := fun e => h.1 e.symm
    simp [tokens, hc, ih h.2]

/-- The first space ends the first token. -/
theorem tokens_cons_space {t : Line} (h : ' ' ∉ t) (rest : Line) : tokens (t ++ ' ' :: rest) = t :: tokens rest := by
  induction t with
  | nil => simp [tokens]
  | cons c cs ih =>
    simp only [List.mem_cons, not_or] at h
    have hc : ¬ c = ' ' := fun e => h.1 e.symm
    simp [tokens, hc, ih h.2]

/-- What parses: a known keyword with its number of operand tokens, none of them empty. -/
theorem parse_eq_ok {line : Line} {i : Instr} :
    parse line = .ok i ↔ ofTokens (tokens line) = .ok i ∧ [] ∉ tokens line := by
  unfold parse refuseEmpty
  cases ofTokens (tokens line) with
  | error e => simp
  | ok j => by_cases h : [] ∈ tokens line <;> simp [h]

/-- What assembles, and to which word. -/
theorem asm_eq_ok {line : Line} {w : InstrWord} : asm line = .ok w ↔ ∃ i, ofTokens (tokens line) = .ok i ∧ encode i = w := by
  unfold asm
  cases ofTokens (tokens line) <;> simp

/-- A line that does not tokenise into a known shape does not assemble. -/
theorem asm_of_error {line : Line} {e : ParseError} (h : ofTokens (tokens line) = .error e) : asm line = .error e := by
  simp only [asm, h]

/-- The parser fails on a line with an empty token, whatever else it holds. -/
theorem parse_of_empty {line : Line} (h : [] ∈ tokens line) : ∃ e, parse line = .error e := by
  cases hp : parse line with
  | error e => exact ⟨e, rfl⟩
  | ok i => exact absurd h (parse_eq_ok.mp hp).2

/-- What loads: what assembles and has no empty token. -/
theorem loadLine_eq_ok {line : Line} {w : InstrWord} : loadLine line = .ok w ↔ asm line = .ok w ∧ [] ∉ tokens line := by
  unfold loadLine
  cases hp : parse line with
  | error e =>
    simp only [reduceCtorEq, false_iff]
    rintro ⟨ha, he⟩
    obtain ⟨i, hi, -⟩ := asm_eq_ok.mp ha
    rw [parse_eq_ok.mpr ⟨hi, he⟩] at hp
    cases hp
  | ok i => simp only [(parse_eq_ok.mp hp).2, not_false_eq_true, and_true]

/-- A line that parses loads, to its instruction's word. -/
theorem loadLine_of_parse {line : Line} {i : Instr} (h : parse line = .ok i) : loadLine line = .ok (encode i) :=
  have h' := parse_eq_ok.mp h
  loadLine_eq_ok.mpr ⟨asm_eq_ok.mpr ⟨i, h'.1, rfl⟩, h'.2⟩

/-- A line that does not parse does not load. -/
theorem loadLine_of_error {line : Line} {e : ParseError} (h : parse line = .error e) : loadLine line = .error e := by
  simp only [loadLine, h]

/-! ### Numerals -/

/-- What `decimal?` accepts: one or more digits. -/
theorem decimal?_eq_some {cs : Line} {n : Nat} :
    decimal? cs = some n ↔ cs ≠ [] ∧ (∀ c ∈ cs, c.isDigit = true) ∧ n = Nat.ofDigitChars 10 cs 0 := by
  unfold decimal?
  cases cs with
  | nil => simp
  | cons c cs =>
    by_cases h : (c :: cs).all Char.isDigit = true
    · have h' := List.all_eq_true.mp h
      simp only [List.isEmpty_cons, Bool.false_eq_true, if_false, h, if_true, Option.some.injEq]
      exact ⟨fun e => ⟨by simp, h', e.symm⟩, fun e => e.2.2.symm⟩
    · have h' : ¬ ∀ x ∈ c :: cs, x.isDigit = true := fun e => h (List.all_eq_true.mpr e)
      simp only [List.isEmpty_cons, Bool.false_eq_true, if_false, h]
      exact ⟨fun e => (by cases e), fun e => absurd e.2.1 h'⟩

/-- Anything else has no value. -/
theorem decimal?_eq_none {cs : Line} : decimal? cs = none ↔ ¬ (cs ≠ [] ∧ ∀ c ∈ cs, c.isDigit = true) := by
  cases h : decimal? cs with
  | none =>
    simp only [true_iff]
    intro hc
    have := (decimal?_eq_some (n := Nat.ofDigitChars 10 cs 0)).mpr ⟨hc.1, hc.2, rfl⟩
    rw [h] at this
    cases this
  | some n =>
    have hs := decimal?_eq_some.mp h
    constructor
    · intro e; cases e
    · intro hc; exact absurd ⟨hs.1, hs.2.1⟩ hc

/-- A printed number is all digits. -/
theorem natText_isDigit (n : Nat) : ∀ c ∈ natText n, c.isDigit = true :=
  fun _ hc => Nat.isDigit_of_mem_toDigits (by omega) (by omega) hc

/-- A printed number is read back. -/
@[simp] theorem decimal?_natText (n : Nat) : decimal? (natText n) = some n :=
  decimal?_eq_some.mpr ⟨Nat.toDigits_ne_nil, natText_isDigit n, Nat.ofDigitChars_ten_toDigits.symm⟩

/-- A digit is neither the register sigil, nor the sign, nor a space. -/
theorem isDigit_ne {c : Char} (h : c.isDigit = true) : c ≠ 'r' ∧ c ≠ '-' ∧ c ≠ ' ' := by
  refine ⟨?_, ?_, ?_⟩ <;> (rintro rfl; revert h; decide)

/-- A printed number holds no space. -/
theorem space_notMem_natText (n : Nat) : ' ' ∉ natText n :=
  fun h => (isDigit_ne (natText_isDigit n _ h)).2.2 rfl

/-- A token whose first character is neither `r` nor `-` is read as a plain numeral. -/
theorem operandOf_plain {cs : Line} (h : ∀ c ∈ cs.head?, c ≠ 'r' ∧ c ≠ '-') : operandOf cs = plainToken cs := by
  cases cs with
  | nil => rfl
  | cons c cs =>
    have hc := h c (by simp)
    unfold operandOf
    split
    · rename_i heq; simp only [List.cons.injEq] at heq; exact absurd heq.1 hc.1
    · rename_i heq; simp only [List.cons.injEq] at heq; exact absurd heq.1 hc.2
    · rfl

/-- A digit string is read as a plain numeral. -/
theorem operandOf_digits {ds : Line} (h : ∀ c ∈ ds, c.isDigit = true) : operandOf ds = plainToken ds := by
  refine operandOf_plain fun c hc => ?_
  have hm : c ∈ ds := by
    cases ds with
    | nil => simp at hc
    | cons d ds => simp at hc; subst hc; simp
  have := isDigit_ne (h c hm)
  exact ⟨this.1, this.2.1⟩

/-- A literal in range. -/
theorem literalOf_of_fits {z : Int} (h0 : intMin ≤ z) (h1 : z ≤ intMax) : literalOf z = .lit (BitVec.ofInt 32 z) := by
  simp [literalOf, h0, h1]

/-- A literal out of range. -/
theorem literalOf_of_out {z : Int} (h : z < intMin ∨ intMax < z) : literalOf z = malformed := by
  have h' : ¬ (intMin ≤ z ∧ z ≤ intMax) := by omega
  simp only [literalOf, if_neg h']

/-- A word's value is in range. -/
theorem toInt_range (v : Word) : intMin ≤ v.toInt ∧ v.toInt ≤ intMax := by
  have h1 := BitVec.le_toInt v
  have h2 := BitVec.toInt_lt (x := v)
  simp only [intMin, intMax]
  omega

/-- A printed literal is read back. -/
theorem operandOf_intText (v : Word) : operandOf (intText v.toInt) = .lit v := by
  have hr := toInt_range v
  unfold intText
  split
  · rename_i hneg
    have he : -((v.toInt.natAbs : Nat) : Int) = v.toInt := by omega
    show negativeToken (natText v.toInt.natAbs) = _
    rw [negativeToken, decimal?_natText]
    simp only [he, literalOf_of_fits hr.1 hr.2, BitVec.ofInt_toInt]
  · rename_i hneg
    have he : ((v.toInt.natAbs : Nat) : Int) = v.toInt := by omega
    rw [operandOf_digits (natText_isDigit _), plainToken, decimal?_natText]
    simp only [he, literalOf_of_fits hr.1 hr.2, BitVec.ofInt_toInt]

/-- A printed operand is read back, unless it is malformed. -/
theorem operandOf_operandText {op : Operand} (h : ∀ k p, op ≠ .bad k p) : operandOf (operandText op) = op := by
  cases op with
  | lit v => exact operandOf_intText v
  | reg n =>
    have hn : min n.toNat 0xFFFFFFFF = n.toNat := by have := n.isLt; omega
    simp [operandOf, operandText, registerToken, hn]
  | bad k p => exact absurd rfl (h k p)

/-- A printed operand holds no space. -/
theorem space_notMem_operandText (op : Operand) : ' ' ∉ operandText op := by
  cases op with
  | lit v =>
    show ' ' ∉ intText v.toInt
    unfold intText
    split
    · simp [space_notMem_natText]
    · exact space_notMem_natText _
  | reg n => simp [operandText, space_notMem_natText]
  | bad k p => simp [operandText]

/-- A printed operand is not the empty text. -/
theorem operandText_ne_nil (op : Operand) : operandText op ≠ [] := by
  cases op with
  | lit v =>
    show intText v.toInt ≠ []
    unfold intText
    split
    · simp
    · exact Nat.toDigits_ne_nil
  | reg n => simp [operandText]
  | bad k p => simp [operandText]

/-- What a token is read as is well-formed. -/
theorem operandOf_wf (t : Line) : (operandOf t).wf = true := by
  have hl : ∀ z, (literalOf z).wf = true := by
    intro z; unfold literalOf; split <;> rfl
  unfold operandOf
  split
  · unfold registerToken; split <;> rfl
  · unfold negativeToken; split
    · exact hl _
    · rfl
  · unfold plainToken; split
    · exact hl _
    · rfl

end Sys2Proof.Asm
end

