-- ==== Sys2Proof/Laws/Memory.lean ====
section
/-! SUPPORT. The laws of main memory and of the register file, by induction on the list of listed words. -/

namespace Sys2Proof.Machine

/-- The canonical form of a memory that lists something. -/
theorem wfFrom_cons {lo k : Nat} {v : Word} {m : Memory} :
    Memory.wfFrom lo ((k, v) :: m) = true ↔
      lo ≤ k ∧ k < memWords ∧ v ≠ unlistedWord ∧ Memory.wfFrom (k + 1) m = true := by
  simp only [Memory.wfFrom, Bool.and_eq_true, decide_eq_true_eq, and_assoc]

/-- A write leaves every other word as it was, whatever the form of the memory. -/
theorem memRead_memWrite_other (m : Memory) {a b : Nat} (v : Word) (h : b ≠ a) :
    memRead (memWrite m a v) b = memRead m b := by
  induction m with
  | nil =>
    simp only [memWrite]
    split <;> simp [memRead, h]
  | cons e m ih =>
    obtain ⟨k, w⟩ := e
    simp only [memWrite]
    split
    · split <;> simp [memRead, h]
    · split
      · rename_i hak
        subst hak
        split <;> simp [memRead, h]
      · simp [memRead, ih]

/-- A canonical memory that lists from `lo` on reads as unlisted below `lo`. -/
theorem memRead_below (m : Memory) {lo a : Nat} (hm : Memory.wfFrom lo m = true) (h : a < lo) :
    memRead m a = unlistedWord := by
  induction m generalizing lo with
  | nil => rfl
  | cons e m ih =>
    obtain ⟨k, w⟩ := e
    obtain ⟨hlo, -, -, hm⟩ := wfFrom_cons.mp hm
    have hak : a ≠ k := by omega
    simp only [memRead, if_neg hak]
    exact ih hm (by omega)

/-- What was written is what is read, on canonical memories. -/
theorem memRead_memWrite_self (m : Memory) {lo a : Nat} (v : Word) (hm : Memory.wfFrom lo m = true) :
    memRead (memWrite m a v) a = v := by
  induction m generalizing lo with
  | nil =>
    simp only [memWrite]
    split
    · rename_i h; simp [memRead, h]
    · simp [memRead]
  | cons e m ih =>
    obtain ⟨k, w⟩ := e
    obtain ⟨-, -, -, hm⟩ := wfFrom_cons.mp hm
    simp only [memWrite]
    split
    · split
      · rename_i hak hv
        have hne : a ≠ k := by omega
        simp only [memRead, if_neg hne, hv]
        exact memRead_below m hm (by omega)
      · simp [memRead]
    · split
      · rename_i hak
        subst hak
        split
        · rename_i hv
          rw [hv]
          exact memRead_below m hm (by omega)
        · simp [memRead]
      · rename_i hak
        simp only [memRead, if_neg hak]
        exact ih hm

/-- A larger lower bound is a stronger form. -/
theorem wfFrom_mono (m : Memory) {lo lo' : Nat} (h : lo' ≤ lo) (hm : Memory.wfFrom lo m = true) :
    Memory.wfFrom lo' m = true := by
  cases m with
  | nil => rfl
  | cons e m =>
    obtain ⟨hlo, hrest⟩ := wfFrom_cons.mp hm
    exact wfFrom_cons.mpr ⟨by omega, hrest⟩

/-- Every write inside the 48 words keeps the canonical form. -/
theorem memWrite_wfFrom (m : Memory) {lo a : Nat} (v : Word) (hm : Memory.wfFrom lo m = true) (hlo : lo ≤ a)
    (ha : a < memWords) : Memory.wfFrom lo (memWrite m a v) = true := by
  induction m generalizing lo with
  | nil =>
    simp only [memWrite]
    split
    · rfl
    · rename_i hv
      exact wfFrom_cons.mpr ⟨hlo, ha, hv, rfl⟩
  | cons e m ih =>
    obtain ⟨k, w⟩ := e
    obtain ⟨hk, hk48, hw, hm'⟩ := wfFrom_cons.mp hm
    simp only [memWrite]
    split
    · rename_i hak
      split
      · exact hm
      · rename_i hv
        exact wfFrom_cons.mpr ⟨hlo, ha, hv, wfFrom_cons.mpr ⟨by omega, hk48, hw, hm'⟩⟩
    · split
      · rename_i hak
        subst hak
        split
        · exact wfFrom_mono m (by omega) hm'
        · rename_i hv
          exact wfFrom_cons.mpr ⟨hlo, ha, hv, hm'⟩
      · rename_i hka hne
        exact wfFrom_cons.mpr ⟨hk, hk48, hw, ih hm' (by omega)⟩

/-- A write inside the 48 words keeps the canonical form. -/
theorem memWrite_wf (m : Memory) {a : Nat} (v : Word) (hm : m.wf = true) (ha : a < memWords) :
    (memWrite m a v).wf = true :=
  memWrite_wfFrom m v hm (Nat.zero_le a) ha

/-! ### Registers -/

/-- A register reads as what was last written to it. -/
@[simp] theorem readReg_writeReg_self (s : State) (i : Fin 12) (v : Word) : (s.writeReg i v).readReg i = v := by
  simp [State.readReg, State.writeReg]

/-- A write to one register leaves every other as it was. -/
theorem readReg_writeReg_other (s : State) {i j : Fin 12} (v : Word) (h : j ≠ i) :
    (s.writeReg i v).readReg j = s.readReg j := by
  have h' : (i : Nat) ≠ (j : Nat) := fun e => h (Fin.ext e.symm)
  simp [State.readReg, State.writeReg, Vector.getElem_set_ne, h']

/-- Writing back what a register holds changes nothing. -/
@[simp] theorem writeReg_readReg (s : State) (i : Fin 12) : s.writeReg i (s.readReg i) = s := by
  simp [State.readReg, State.writeReg]

/-- Advancing `pc` reads no register differently. -/
@[simp] theorem readReg_advance (s : State) (i : Fin 12) : s.advance.readReg i = s.readReg i := rfl

/-- Setting `pc` reads no register differently. -/
@[simp] theorem readReg_setPc (s : State) (t : InstrIndex) (i : Fin 12) : (s.setPc t).readReg i = s.readReg i := rfl

/-- A store reads no register differently. -/
@[simp] theorem readReg_writeMem (s : State) (a : Nat) (v : Word) (i : Fin 12) :
    (s.writeMem a v).readReg i = s.readReg i := rfl

end Sys2Proof.Machine
end

