-- ==== Sys2Proof/Laws/Operands.lean ====
section
/-! SUPPORT. What the resolution functions and the narrowing of a result can answer. -/

namespace Sys2Proof.Machine

/-! ### Resolution -/

@[simp] theorem regIdx_lit (v : Word) : regIdx (.lit v) = .error .operandFormatError := rfl
@[simp] theorem regIdx_bad (k : BitVec 8) (p : BitVec 32) : regIdx (.bad k p) = .error .operandFormatError := rfl
@[simp] theorem litVal_lit (v : Word) : litVal (.lit v) = .ok v := rfl
@[simp] theorem litVal_reg (n : BitVec 32) : litVal (.reg n) = .error .operandFormatError := rfl
@[simp] theorem litVal_bad (k : BitVec 8) (p : BitVec 32) : litVal (.bad k p) = .error .operandFormatError := rfl
@[simp] theorem val_lit (s : State) (v : Word) : val s (.lit v) = .ok v := rfl
@[simp] theorem val_reg (s : State) (n : BitVec 32) : val s (.reg n) = regVal s (.reg n) := rfl
@[simp] theorem val_bad (s : State) (k : BitVec 8) (p : BitVec 32) :
    val s (.bad k p) = .error .operandFormatError := rfl

/-- An index up to 11 names its register. -/
theorem regIdx_reg_of_lt {n : BitVec 32} (h : n.toNat < 12) : regIdx (.reg n) = .ok ⟨n.toNat, h⟩ := by
  simp [regIdx, h]

/-- An index above 11 names none (R100). -/
theorem regIdx_reg_of_ge {n : BitVec 32} (h : 12 ≤ n.toNat) : regIdx (.reg n) = .error .operandRangeError := by
  simp [regIdx, Nat.not_lt.mpr h]

/-- The only operands that name a register. -/
theorem regIdx_ok {op : Operand} {i : Fin 12} (h : regIdx op = .ok i) : ∃ n : BitVec 32, op = .reg n ∧ n.toNat = i.val := by
  cases op with
  | reg n =>
    by_cases hn : n.toNat < 12
    · rw [regIdx_reg_of_lt hn] at h
      exact ⟨n, rfl, by cases h; rfl⟩
    · rw [regIdx_reg_of_ge (by omega)] at h
      cases h
  | lit v => cases h
  | bad k p => cases h

/-- `RegIdx` raises nothing but the two operand faults. -/
theorem regIdx_error {op : Operand} {c : Cause} (h : regIdx op = .error c) :
    c = .operandFormatError ∨ c = .operandRangeError := by
  cases op with
  | reg n =>
    by_cases hn : n.toNat < 12
    · rw [regIdx_reg_of_lt hn] at h; cases h
    · rw [regIdx_reg_of_ge (by omega)] at h; cases h; exact .inr rfl
  | lit v => cases h; exact .inl rfl
  | bad k p => cases h; exact .inl rfl

/-- `RegVal` reads the register that `RegIdx` names. -/
theorem regVal_of_ok {s : State} {op : Operand} {i : Fin 12} (h : regIdx op = .ok i) :
    regVal s op = .ok (s.readReg i) := by simp [regVal, h]

/-- `RegVal` faults as `RegIdx` does. -/
theorem regVal_of_error {s : State} {op : Operand} {c : Cause} (h : regIdx op = .error c) :
    regVal s op = .error c := by simp [regVal, h]

/-- Where `RegVal` gets its value from. -/
theorem regVal_ok {s : State} {op : Operand} {v : Word} (h : regVal s op = .ok v) :
    ∃ i, regIdx op = .ok i ∧ v = s.readReg i := by
  cases hi : regIdx op with
  | ok i => rw [regVal_of_ok hi] at h; cases h; exact ⟨i, rfl, rfl⟩
  | error c => rw [regVal_of_error hi] at h; cases h

/-- Where `RegVal` gets its fault from. -/
theorem regVal_error {s : State} {op : Operand} {c : Cause} (h : regVal s op = .error c) : regIdx op = .error c := by
  cases hi : regIdx op with
  | ok i => rw [regVal_of_ok hi] at h; cases h
  | error d => rw [regVal_of_error hi] at h; cases h; rfl

/-- `Val` of an operand in register form is `RegVal` of it. -/
theorem val_of_regIdx_ok {s : State} {op : Operand} {i : Fin 12} (h : regIdx op = .ok i) :
    val s op = .ok (s.readReg i) := by
  obtain ⟨n, rfl, -⟩ := regIdx_ok h
  rw [val_reg, regVal_of_ok h]

/-- `Val` raises nothing but the two operand faults. -/
theorem val_error {s : State} {op : Operand} {c : Cause} (h : val s op = .error c) :
    c = .operandFormatError ∨ c = .operandRangeError := by
  cases op with
  | reg n => exact regIdx_error (regVal_error h)
  | lit v => cases h
  | bad k p => cases h; exact .inl rfl

/-- `Lit` raises nothing but the form fault. -/
theorem litVal_error {op : Operand} {c : Cause} (h : litVal op = .error c) : c = .operandFormatError := by
  cases op <;> cases h <;> rfl

/-- The only operands that are literals. -/
theorem litVal_ok {op : Operand} {n : Word} (h : litVal op = .ok n) : op = .lit n := by
  cases op <;> cases h; rfl

/-- Operand values depend on the registers alone. -/
theorem val_congr {s t : State} (h : s.regs = t.regs) (op : Operand) : val s op = val t op := by
  cases op with
  | reg n =>
    cases hi : regIdx (.reg n) with
    | ok i => simp [regVal_of_ok hi, State.readReg, h]
    | error c => simp [regVal_of_error hi]
  | lit v => rfl
  | bad k p => rfl

/-- Register values depend on the registers alone. -/
theorem regVal_congr {s t : State} (h : s.regs = t.regs) (op : Operand) : regVal s op = regVal t op := by
  cases hi : regIdx op with
  | ok i => simp [regVal_of_ok hi, State.readReg, h]
  | error c => simp [regVal_of_error hi]

/-! ### Narrowing -/

/-- `fits32` says that the integer is in the range of a signed 32-bit integer. -/
theorem fits32_iff (z : Int) : fits32 z = true ↔ intMin ≤ z ∧ z ≤ intMax := by
  simp [fits32]

/-- Every word's value fits. -/
theorem fits32_toInt (x : Word) : fits32 x.toInt = true := by
  have h1 := BitVec.le_toInt x
  have h2 := BitVec.toInt_lt (x := x)
  rw [fits32_iff]
  simp only [intMin, intMax]
  omega

/-- A result that fits is kept exactly. -/
theorem toInt_wrap32 {z : Int} (h : fits32 z = true) : (wrap32 z).toInt = z := by
  rw [fits32_iff] at h
  simp only [intMin, intMax] at h
  rw [wrap32, BitVec.toInt_ofInt, Int.bmod_eq_of_le] <;> omega

/-- A wrapped result agrees with the exact one modulo `2^32`. -/
theorem toInt_wrap32_emod (z : Int) : (wrap32 z).toInt % 2 ^ 32 = z % 2 ^ 32 := by
  rw [wrap32, BitVec.toInt_ofInt]
  exact Int.bmod_emod

/-- Wrapping a word's value gives the word back. -/
@[simp] theorem wrap32_toInt (x : Word) : wrap32 x.toInt = x := by simp [wrap32]

/-- `Arith` where the exact result fits. -/
theorem arith_of_fits {mode : OverflowMode} {z : Int} (h : fits32 z = true) : arith mode z = .ok (wrap32 z) := by
  simp [arith, h]

/-- `Arith` in `wrap` mode, fitting or not. -/
@[simp] theorem arith_wrap (z : Int) : arith .wrap z = .ok (wrap32 z) := by
  simp [arith]

/-- `Arith` in `fault` mode where the exact result does not fit. -/
theorem arith_fault {z : Int} (h : fits32 z = false) : arith .fault z = .error .arithmeticOverflow := by
  simp [arith, h]

/-- All that `Arith` can raise, and when. -/
theorem arith_error {mode : OverflowMode} {z : Int} {c : Cause} (h : arith mode z = .error c) :
    c = .arithmeticOverflow ∧ mode = .fault ∧ fits32 z = false := by
  cases hz : fits32 z with
  | true => rw [arith_of_fits hz] at h; cases h
  | false =>
    cases mode with
    | wrap => rw [arith_wrap] at h; cases h
    | fault => rw [arith_fault hz] at h; cases h; exact ⟨rfl, rfl, rfl⟩

/-- `Int.tdiv` is the spec's formula for `tdiv` (R15). -/
theorem tdiv_eq_sign_mul (a b : Int) : tdiv a b = a.sign * b.sign * ((a.natAbs / b.natAbs : Nat) : Int) := by
  have h := Int.sign_mul_natAbs (a.tdiv b)
  rw [Int.sign_tdiv, Int.natAbs_tdiv] at h
  rw [tdiv, ← h]
  split
  · rename_i hlt
    simp [Nat.div_eq_of_lt hlt]
  · rfl

end Sys2Proof.Machine
end

