-- ==== Sys2Proof/Laws/State.lean ====
section
/-! SUPPORT. One lemma per field for each update of a state, true by `rfl`, so that no later proof unfolds one. -/

namespace Sys2Proof.Machine

section WriteReg
variable (s : State) (i : Fin 12) (v : Word)

@[simp] theorem writeReg_regs : (s.writeReg i v).regs = s.regs.set i v := rfl
@[simp] theorem writeReg_mem : (s.writeReg i v).mem = s.mem := rfl
@[simp] theorem writeReg_pc : (s.writeReg i v).pc = s.pc := rfl
@[simp] theorem writeReg_faultCause : (s.writeReg i v).faultCause = s.faultCause := rfl
@[simp] theorem writeReg_faultPc : (s.writeReg i v).faultPc = s.faultPc := rfl
@[simp] theorem writeReg_lastValid : (s.writeReg i v).lastValid = s.lastValid := rfl
@[simp] theorem writeReg_lastPc : (s.writeReg i v).lastPc = s.lastPc := rfl
@[simp] theorem writeReg_lastWord : (s.writeReg i v).lastWord = s.lastWord := rfl
@[simp] theorem writeReg_paused : (s.writeReg i v).paused = s.paused := rfl
@[simp] theorem writeReg_imem : (s.writeReg i v).imem = s.imem := rfl
@[simp] theorem writeReg_trace : (s.writeReg i v).trace = s.trace := rfl
@[simp] theorem writeReg_overflowMode : (s.writeReg i v).overflowMode = s.overflowMode := rfl
end WriteReg

section WriteMem
variable (s : State) (a : Nat) (v : Word)

@[simp] theorem writeMem_regs : (s.writeMem a v).regs = s.regs := rfl
@[simp] theorem writeMem_mem : (s.writeMem a v).mem = memWrite s.mem a v := rfl
@[simp] theorem writeMem_pc : (s.writeMem a v).pc = s.pc := rfl
@[simp] theorem writeMem_faultCause : (s.writeMem a v).faultCause = s.faultCause := rfl
@[simp] theorem writeMem_faultPc : (s.writeMem a v).faultPc = s.faultPc := rfl
@[simp] theorem writeMem_lastValid : (s.writeMem a v).lastValid = s.lastValid := rfl
@[simp] theorem writeMem_lastPc : (s.writeMem a v).lastPc = s.lastPc := rfl
@[simp] theorem writeMem_lastWord : (s.writeMem a v).lastWord = s.lastWord := rfl
@[simp] theorem writeMem_paused : (s.writeMem a v).paused = s.paused := rfl
@[simp] theorem writeMem_imem : (s.writeMem a v).imem = s.imem := rfl
@[simp] theorem writeMem_trace : (s.writeMem a v).trace = s.trace := rfl
@[simp] theorem writeMem_overflowMode : (s.writeMem a v).overflowMode = s.overflowMode := rfl
end WriteMem

section SetPc
variable (s : State) (t : InstrIndex)

@[simp] theorem setPc_regs : (s.setPc t).regs = s.regs := rfl
@[simp] theorem setPc_mem : (s.setPc t).mem = s.mem := rfl
@[simp] theorem setPc_pc : (s.setPc t).pc = t := rfl
@[simp] theorem setPc_faultCause : (s.setPc t).faultCause = s.faultCause := rfl
@[simp] theorem setPc_faultPc : (s.setPc t).faultPc = s.faultPc := rfl
@[simp] theorem setPc_lastValid : (s.setPc t).lastValid = s.lastValid := rfl
@[simp] theorem setPc_lastPc : (s.setPc t).lastPc = s.lastPc := rfl
@[simp] theorem setPc_lastWord : (s.setPc t).lastWord = s.lastWord := rfl
@[simp] theorem setPc_paused : (s.setPc t).paused = s.paused := rfl
@[simp] theorem setPc_imem : (s.setPc t).imem = s.imem := rfl
@[simp] theorem setPc_trace : (s.setPc t).trace = s.trace := rfl
@[simp] theorem setPc_overflowMode : (s.setPc t).overflowMode = s.overflowMode := rfl
end SetPc

section Advance
variable (s : State)

@[simp] theorem advance_regs : s.advance.regs = s.regs := rfl
@[simp] theorem advance_mem : s.advance.mem = s.mem := rfl
@[simp] theorem advance_pc : s.advance.pc = s.pc + 1 := rfl
@[simp] theorem advance_faultCause : s.advance.faultCause = s.faultCause := rfl
@[simp] theorem advance_faultPc : s.advance.faultPc = s.faultPc := rfl
@[simp] theorem advance_lastValid : s.advance.lastValid = s.lastValid := rfl
@[simp] theorem advance_lastPc : s.advance.lastPc = s.lastPc := rfl
@[simp] theorem advance_lastWord : s.advance.lastWord = s.lastWord := rfl
@[simp] theorem advance_paused : s.advance.paused = s.paused := rfl
@[simp] theorem advance_imem : s.advance.imem = s.imem := rfl
@[simp] theorem advance_trace : s.advance.trace = s.trace := rfl
@[simp] theorem advance_overflowMode : s.advance.overflowMode = s.overflowMode := rfl
end Advance

section EnterFault
variable (s : State) (c : Cause)

@[simp] theorem enterFault_regs : (s.enterFault c).regs = s.regs := rfl
@[simp] theorem enterFault_mem : (s.enterFault c).mem = s.mem := rfl
@[simp] theorem enterFault_pc : (s.enterFault c).pc = s.pc := rfl
@[simp] theorem enterFault_faultCause : (s.enterFault c).faultCause = c.code := rfl
@[simp] theorem enterFault_faultPc : (s.enterFault c).faultPc = s.pc := rfl
@[simp] theorem enterFault_lastValid : (s.enterFault c).lastValid = s.lastValid := rfl
@[simp] theorem enterFault_lastPc : (s.enterFault c).lastPc = s.lastPc := rfl
@[simp] theorem enterFault_lastWord : (s.enterFault c).lastWord = s.lastWord := rfl
@[simp] theorem enterFault_paused : (s.enterFault c).paused = s.paused := rfl
@[simp] theorem enterFault_imem : (s.enterFault c).imem = s.imem := rfl
@[simp] theorem enterFault_trace : (s.enterFault c).trace = s.trace := rfl
@[simp] theorem enterFault_overflowMode : (s.enterFault c).overflowMode = s.overflowMode := rfl
end EnterFault

section HostReset
variable (s : State)

@[simp] theorem hostReset_regs : (hostReset s).regs = State.reset.regs := rfl
@[simp] theorem hostReset_mem : (hostReset s).mem = [] := rfl
@[simp] theorem hostReset_pc : (hostReset s).pc = 0 := rfl
@[simp] theorem hostReset_faultCause : (hostReset s).faultCause = 0#3 := rfl
@[simp] theorem hostReset_faultPc : (hostReset s).faultPc = 0 := rfl
@[simp] theorem hostReset_lastValid : (hostReset s).lastValid = false := rfl
@[simp] theorem hostReset_lastPc : (hostReset s).lastPc = 0 := rfl
@[simp] theorem hostReset_lastWord : (hostReset s).lastWord = 0 := rfl
@[simp] theorem hostReset_paused : (hostReset s).paused = false := rfl
@[simp] theorem hostReset_imem : (hostReset s).imem = s.imem := rfl
@[simp] theorem hostReset_trace : (hostReset s).trace = s.trace := rfl
@[simp] theorem hostReset_overflowMode : (hostReset s).overflowMode = s.overflowMode := rfl
end HostReset

/-- No cause has the code 0, which means that no fault has happened. -/
@[simp] theorem Cause.code_ne_zero (c : Cause) : c.code ≠ 0#3 := by cases c <;> decide

/-- The codes tell the causes apart. -/
theorem Cause.code_injective {c d : Cause} (h : c.code = d.code) : c = d := by
  revert h; cases c <;> cases d <;> decide

/-! ### `retire` -/

/-- The end of a step whose instruction faulted. -/
theorem retire_of_fault {w : InstrWord} {s t : State} (h : t.faultCause ≠ 0#3) : retire w s t = t := by
  simp [retire, h]

/-- The end of a step whose instruction completed. -/
theorem retire_of_ok {w : InstrWord} {s t : State} (h : t.faultCause = 0#3) :
    retire w s t =
      { t with lastValid := true, lastPc := s.pc, lastWord := w, paused := t.paused || t.trace } := by
  simp [retire, h]

/-- The end of a step leaves the fault register as it finds it. -/
@[simp] theorem retire_faultCause (w : InstrWord) (s t : State) : (retire w s t).faultCause = t.faultCause := by
  unfold retire; split <;> rfl

/-- The end of a step leaves `pc` as it finds it. -/
@[simp] theorem retire_pc (w : InstrWord) (s t : State) : (retire w s t).pc = t.pc := by
  unfold retire; split <;> rfl

/-! ### Run states -/

/-- FAULTED is exactly `FAULT_CAUSE ≠ 0`. -/
theorem runState_faulted_iff (s : State) : s.runState = .faulted ↔ s.faultCause ≠ 0#3 := by
  unfold State.runState
  by_cases h : s.faultCause = 0#3 <;> cases hp : s.paused <;> by_cases hl : s.pc.toNat < s.progLen <;> simp [h, hl]

/-- PAUSED is exactly no fault and `PAUSED = 1`. -/
theorem runState_paused_iff (s : State) : s.runState = .paused ↔ s.faultCause = 0#3 ∧ s.paused = true := by
  unfold State.runState
  by_cases h : s.faultCause = 0#3 <;> cases hp : s.paused <;> by_cases hl : s.pc.toNat < s.progLen <;> simp [h, hl]

/-- RUNNING is exactly the condition under which a step is enabled. -/
theorem runState_running_iff (s : State) :
    s.runState = .running ↔ s.faultCause = 0#3 ∧ s.pc.toNat < s.progLen ∧ s.paused = false := by
  unfold State.runState
  by_cases h : s.faultCause = 0#3 <;> cases hp : s.paused <;> by_cases hl : s.pc.toNat < s.progLen <;> simp [h, hl]

/-- DONE is exactly no fault, not paused, and `pc` at or past the end of the program. -/
theorem runState_done_iff (s : State) :
    s.runState = .done ↔ s.faultCause = 0#3 ∧ s.progLen ≤ s.pc.toNat ∧ s.paused = false := by
  unfold State.runState
  by_cases h : s.faultCause = 0#3 <;> cases hp : s.paused <;> by_cases hl : s.pc.toNat < s.progLen <;>
    simp [h, hl, Nat.not_lt.mp, Nat.not_le.mpr]

end Sys2Proof.Machine
end

