-- ==== Sys2Proof/Laws/Exec.lean ====
section
/-! SUPPORT. Once per instruction, everything it can do: the next states it can answer, with what made each of them.
Later proofs cite these and unfold no meaning. -/

namespace Sys2Proof.Machine

/-! ### `settle` -/

@[simp] theorem settle_ok (s t : State) : settle s (.ok t) = .next t := rfl
@[simp] theorem settle_error (s : State) (c : Cause) : settle s (.error c) = .next (s.enterFault c) := rfl

/-- An instruction rule always answers a next state. -/
theorem settle_total (s : State) (r : Except Cause State) : ∃ t, settle s r = .next t := by
  cases r with
  | ok t => exact ⟨t, rfl⟩
  | error c => exact ⟨s.enterFault c, rfl⟩

/-- The next state is the rule's, or the fault entry of what the rule raised. -/
theorem settle_next {s t : State} {r : Except Cause State} (h : settle s r = .next t) :
    r = .ok t ∨ ∃ c, r = .error c ∧ t = s.enterFault c := by
  cases r with
  | ok u => simp only [settle_ok, Host.Outcome.next.injEq] at h; exact .inl (by rw [h])
  | error c => simp only [settle_error, Host.Outcome.next.injEq] at h; exact .inr ⟨c, rfl, h.symm⟩

/-! ### The arithmetic family -/

section Arith
variable {f : Word → Word → Except Cause Word} {dst a b : Operand} {s : State}

theorem arithCommon_of_error1 {c : Cause} (h : regIdx dst = .error c) : arithCommon f dst a b s = .error c := by
  simp [arithCommon, h]

theorem arithCommon_of_error2 {d : Fin 12} {c : Cause} (hd : regIdx dst = .ok d) (h : val s a = .error c) :
    arithCommon f dst a b s = .error c := by simp [arithCommon, hd, h]

theorem arithCommon_of_error3 {d : Fin 12} {x : Word} {c : Cause} (hd : regIdx dst = .ok d) (ha : val s a = .ok x)
    (h : val s b = .error c) : arithCommon f dst a b s = .error c := by simp [arithCommon, hd, ha, h]

theorem arithCommon_of_error4 {d : Fin 12} {x y : Word} {c : Cause} (hd : regIdx dst = .ok d) (ha : val s a = .ok x)
    (hb : val s b = .ok y) (h : f x y = .error c) : arithCommon f dst a b s = .error c := by
  simp [arithCommon, hd, ha, hb, h]

theorem arithCommon_of_ok {d : Fin 12} {x y r : Word} (hd : regIdx dst = .ok d) (ha : val s a = .ok x)
    (hb : val s b = .ok y) (h : f x y = .ok r) : arithCommon f dst a b s = .ok (s.writeReg d r).advance := by
  simp [arithCommon, hd, ha, hb, h]

/-- All that the common shape of add, sub, mul and div can answer. -/
theorem arithCommon_cases (f : Word → Word → Except Cause Word) (dst a b : Operand) (s : State) :
    (∃ d x y r, regIdx dst = .ok d ∧ val s a = .ok x ∧ val s b = .ok y ∧ f x y = .ok r ∧
      arithCommon f dst a b s = .ok (s.writeReg d r).advance) ∨
    (∃ c, (regIdx dst = .error c ∨ val s a = .error c ∨ val s b = .error c ∨
        ∃ x y, val s a = .ok x ∧ val s b = .ok y ∧ f x y = .error c) ∧
      arithCommon f dst a b s = .error c) := by
  cases hd : regIdx dst with
  | error c => exact .inr ⟨c, .inl rfl, arithCommon_of_error1 hd⟩
  | ok d =>
    cases ha : val s a with
    | error c => exact .inr ⟨c, .inr (.inl rfl), arithCommon_of_error2 hd ha⟩
    | ok x =>
      cases hb : val s b with
      | error c => exact .inr ⟨c, .inr (.inr (.inl rfl)), arithCommon_of_error3 hd ha hb⟩
      | ok y =>
        cases hf : f x y with
        | error c => exact .inr ⟨c, .inr (.inr (.inr ⟨x, y, rfl, rfl, hf⟩)), arithCommon_of_error4 hd ha hb hf⟩
        | ok r => exact .inl ⟨d, x, y, r, rfl, rfl, rfl, hf, arithCommon_of_ok hd ha hb hf⟩

end Arith

/-- All that a three-operand instruction can do: write the register OP1 names and fall through, or take an operand fault,
or take what its operation `f` raised. -/
def ArithOutcome (f : Word → Word → Except Cause Word) (dst a b : Operand) (s t : State) : Prop :=
  (∃ d x y r, regIdx dst = .ok d ∧ val s a = .ok x ∧ val s b = .ok y ∧ f x y = .ok r ∧
    t = (s.writeReg d r).advance) ∨
  (∃ c, (c = .operandFormatError ∨ c = .operandRangeError ∨
      ∃ x y, val s a = .ok x ∧ val s b = .ok y ∧ f x y = .error c) ∧ t = s.enterFault c)

/-- The common shape, settled. -/
theorem arith_next {f : Word → Word → Except Cause Word} {dst a b : Operand} {s t : State}
    (h : settle s (arithCommon f dst a b s) = .next t) : ArithOutcome f dst a b s t := by
  obtain ⟨d, x, y, r, hd, ha, hb, hf, e⟩ | ⟨c, hc, e⟩ := arithCommon_cases f dst a b s
  · rw [e, settle_ok, Host.Outcome.next.injEq] at h
    exact .inl ⟨d, x, y, r, hd, ha, hb, hf, h.symm⟩
  · rw [e, settle_error, Host.Outcome.next.injEq] at h
    refine .inr ⟨c, ?_, h.symm⟩
    obtain hc | hc | hc | hc := hc
    · exact (regIdx_error hc).imp id .inl
    · exact (val_error hc).imp id .inl
    · exact (val_error hc).imp id .inl
    · exact .inr (.inr hc)

theorem execAdd_next {dst a b : Operand} {s t : State} (h : execAdd dst a b s = .next t) :
    ArithOutcome (fun x y => arith s.overflowMode (x.toInt + y.toInt)) dst a b s t := arith_next h

theorem execSub_next {dst a b : Operand} {s t : State} (h : execSub dst a b s = .next t) :
    ArithOutcome (fun x y => arith s.overflowMode (x.toInt - y.toInt)) dst a b s t := arith_next h

theorem execMul_next {dst a b : Operand} {s t : State} (h : execMul dst a b s = .next t) :
    ArithOutcome (fun x y => arith s.overflowMode (x.toInt * y.toInt)) dst a b s t := arith_next h

theorem execDiv_next {dst a b : Operand} {s t : State} (h : execDiv dst a b s = .next t) :
    ArithOutcome (fun x y => divide s.overflowMode x y) dst a b s t := arith_next h

/-- All that a division can raise, and when. -/
theorem divide_error {mode : OverflowMode} {x y : Word} {c : Cause} (h : divide mode x y = .error c) :
    (c = .divisionByZero ∧ y = 0#32) ∨
    (c = .arithmeticOverflow ∧ y ≠ 0#32 ∧ mode = .fault ∧ fits32 (tdiv x.toInt y.toInt) = false) := by
  unfold divide at h
  split at h
  · rename_i hy
    cases h
    exact .inl ⟨rfl, hy⟩
  · rename_i hy
    exact .inr ⟨(arith_error h).1, hy, (arith_error h).2⟩

/-- A division by anything but 0 is the narrowed quotient. -/
theorem divide_of_ne {mode : OverflowMode} {x y : Word} (h : y ≠ 0#32) :
    divide mode x y = arith mode (tdiv x.toInt y.toInt) := by simp [divide, h]

/-- A division by 0. -/
@[simp] theorem divide_zero (mode : OverflowMode) (x : Word) : divide mode x 0#32 = .error .divisionByZero := by
  simp [divide]

/-! ### Load and store -/

/-- All that `ld` can do. -/
theorem execLd_next {addr dst : Operand} {s t : State} (h : execLd addr dst s = .next t) :
    (∃ a d, regIdx addr = .ok a ∧ regIdx dst = .ok d ∧ t = (s.writeReg d (memRead s.mem a.val)).advance) ∨
    (∃ c, (regIdx addr = .error c ∨ ∃ a, regIdx addr = .ok a ∧ regIdx dst = .error c) ∧ t = s.enterFault c) := by
  unfold execLd at h
  cases ha : regIdx addr with
  | error c => simp only [ha, settle_error, Host.Outcome.next.injEq] at h; exact .inr ⟨c, .inl rfl, h.symm⟩
  | ok a =>
    cases hd : regIdx dst with
    | error c => simp only [ha, hd, settle_error, Host.Outcome.next.injEq] at h; exact .inr ⟨c, .inr ⟨a, rfl, rfl⟩, h.symm⟩
    | ok d => simp only [ha, hd, settle_ok, Host.Outcome.next.injEq] at h; exact .inl ⟨a, d, rfl, rfl, h.symm⟩

/-- The word index of a store inside memory. -/
theorem storeIndex_of_mem {n : Word} (h0 : 0 ≤ n.toInt) (h1 : n.toInt ≤ 47) : storeIndex n = .ok n.toInt.toNat := by
  have h : ¬ (n.toInt < 0 ∨ n.toInt > 47) := by omega
  simp only [storeIndex, if_neg h]

/-- A store outside memory faults. -/
theorem storeIndex_of_out {n : Word} (h : n.toInt < 0 ∨ 47 < n.toInt) :
    storeIndex n = .error .outOfRangeMemoryAccess := by
  have h' : n.toInt < 0 ∨ n.toInt > 47 := h
  simp only [storeIndex, if_pos h']

/-- A store index is one of the 48, and the literal's value. -/
theorem storeIndex_ok {n : Word} {a : Nat} (h : storeIndex n = .ok a) : a < memWords ∧ (a : Int) = n.toInt := by
  unfold storeIndex at h
  split at h
  · cases h
  · cases h
    simp only [memWords]
    omega

/-- A store index raises nothing but its own fault. -/
theorem storeIndex_error {n : Word} {c : Cause} (h : storeIndex n = .error c) :
    c = .outOfRangeMemoryAccess ∧ (n.toInt < 0 ∨ 47 < n.toInt) := by
  unfold storeIndex at h
  split at h
  · rename_i hn; cases h; exact ⟨rfl, hn⟩
  · cases h

/-- All that `str` can do. -/
theorem execStr_next {src addr : Operand} {s t : State} (h : execStr src addr s = .next t) :
    (∃ v n a, regVal s src = .ok v ∧ litVal addr = .ok n ∧ storeIndex n = .ok a ∧ t = (s.writeMem a v).advance) ∨
    (∃ c, (regVal s src = .error c ∨ (∃ v, regVal s src = .ok v ∧ litVal addr = .error c) ∨
        ∃ v n, regVal s src = .ok v ∧ litVal addr = .ok n ∧ storeIndex n = .error c) ∧ t = s.enterFault c) := by
  unfold execStr at h
  cases hv : regVal s src with
  | error c => simp only [hv, settle_error, Host.Outcome.next.injEq] at h; exact .inr ⟨c, .inl rfl, h.symm⟩
  | ok v =>
    cases hn : litVal addr with
    | error c =>
      simp only [hv, hn, settle_error, Host.Outcome.next.injEq] at h
      exact .inr ⟨c, .inr (.inl ⟨v, rfl, rfl⟩), h.symm⟩
    | ok n =>
      cases ha : storeIndex n with
      | error c =>
        simp only [hv, hn, ha, settle_error, Host.Outcome.next.injEq] at h
        exact .inr ⟨c, .inr (.inr ⟨v, n, rfl, rfl, ha⟩), h.symm⟩
      | ok a =>
        simp only [hv, hn, ha, settle_ok, Host.Outcome.next.injEq] at h
        exact .inl ⟨v, n, a, rfl, rfl, ha, h.symm⟩

/-! ### Move and compare -/

/-- All that `mov` can do. -/
theorem execMov_next {src dst : Operand} {s t : State} (h : execMov src dst s = .next t) :
    (∃ v d, regVal s src = .ok v ∧ regIdx dst = .ok d ∧ t = (s.writeReg d v).advance) ∨
    (∃ c, (regVal s src = .error c ∨ ∃ v, regVal s src = .ok v ∧ regIdx dst = .error c) ∧ t = s.enterFault c) := by
  unfold execMov at h
  cases hv : regVal s src with
  | error c => simp only [hv, settle_error, Host.Outcome.next.injEq] at h; exact .inr ⟨c, .inl rfl, h.symm⟩
  | ok v =>
    cases hd : regIdx dst with
    | error c => simp only [hv, hd, settle_error, Host.Outcome.next.injEq] at h; exact .inr ⟨c, .inr ⟨v, rfl, rfl⟩, h.symm⟩
    | ok d => simp only [hv, hd, settle_ok, Host.Outcome.next.injEq] at h; exact .inl ⟨v, d, rfl, rfl, h.symm⟩

/-- All that `cmp` can do. -/
theorem execCmp_next {target literal : Operand} {s t : State} (h : execCmp target literal s = .next t) :
    (∃ r k, regIdx target = .ok r ∧ litVal literal = .ok k ∧
      t = (s.writeReg r (compareResult (s.readReg r) k)).advance) ∨
    (∃ c, (regIdx target = .error c ∨ ∃ r, regIdx target = .ok r ∧ litVal literal = .error c) ∧ t = s.enterFault c) := by
  unfold execCmp at h
  cases hr : regIdx target with
  | error c => simp only [hr, settle_error, Host.Outcome.next.injEq] at h; exact .inr ⟨c, .inl rfl, h.symm⟩
  | ok r =>
    cases hk : litVal literal with
    | error c => simp only [hr, hk, settle_error, Host.Outcome.next.injEq] at h; exact .inr ⟨c, .inr ⟨r, rfl, rfl⟩, h.symm⟩
    | ok k => simp only [hr, hk, settle_ok, Host.Outcome.next.injEq] at h; exact .inl ⟨r, k, rfl, rfl, h.symm⟩

/-! ### Jump -/

/-- A jump's target is not negative, and is the literal. -/
theorem jumpTarget_ok {n : Word} {p : InstrIndex} (h : jumpTarget n = .ok p) : p = n ∧ 0 ≤ n.toInt := by
  unfold jumpTarget at h
  split at h
  · cases h
  · cases h; exact ⟨rfl, by omega⟩

/-- A jump's target raises nothing but its own fault. -/
theorem jumpTarget_error {n : Word} {c : Cause} (h : jumpTarget n = .error c) : c = .jumpTargetRange ∧ n.toInt < 0 := by
  unfold jumpTarget at h
  split at h
  · rename_i hn; cases h; exact ⟨rfl, hn⟩
  · cases h

/-- The target of a non-negative literal. -/
theorem jumpTarget_of_nonneg {n : Word} (h : 0 ≤ n.toInt) : jumpTarget n = .ok n := by
  have h' : ¬ n.toInt < 0 := by omega
  simp [jumpTarget, h']

/-- The target of a negative literal. -/
theorem jumpTarget_of_neg {n : Word} (h : n.toInt < 0) : jumpTarget n = .error .jumpTargetRange := by
  simp [jumpTarget, h]

/-- A non-negative word's signed and unsigned values agree. -/
theorem toNat_of_nonneg {n : Word} (h : 0 ≤ n.toInt) : (n.toNat : Int) = n.toInt ∧ n.toNat < 2 ^ 31 := by
  have h2 := BitVec.toInt_eq_toNat_cond n
  have h3 := n.isLt
  split at h2 <;> omega

/-- All that `jmp` can do. -/
theorem execJmp_next {cond target : Operand} {s t : State} (h : execJmp cond target s = .next t) :
    (∃ v n, regVal s cond = .ok v ∧ litVal target = .ok n ∧ 0 ≤ n.toInt ∧
      t = if v = 0#32 then s.setPc n else s.advance) ∨
    (∃ c, (regVal s cond = .error c ∨ (∃ v, regVal s cond = .ok v ∧ litVal target = .error c) ∨
        ∃ v n, regVal s cond = .ok v ∧ litVal target = .ok n ∧ jumpTarget n = .error c) ∧ t = s.enterFault c) := by
  unfold execJmp at h
  cases hv : regVal s cond with
  | error c => simp only [hv, settle_error, Host.Outcome.next.injEq] at h; exact .inr ⟨c, .inl rfl, h.symm⟩
  | ok v =>
    cases hn : litVal target with
    | error c =>
      simp only [hv, hn, settle_error, Host.Outcome.next.injEq] at h
      exact .inr ⟨c, .inr (.inl ⟨v, rfl, rfl⟩), h.symm⟩
    | ok n =>
      cases ht : jumpTarget n with
      | error c =>
        simp only [hv, hn, ht, settle_error, Host.Outcome.next.injEq] at h
        exact .inr ⟨c, .inr (.inr ⟨v, n, rfl, rfl, ht⟩), h.symm⟩
      | ok p =>
        simp only [hv, hn, ht, settle_ok, Host.Outcome.next.injEq] at h
        obtain ⟨rfl, h0⟩ := jumpTarget_ok ht
        exact .inl ⟨v, p, rfl, rfl, h0, h.symm⟩

/-! ### Every instruction -/

/-- Every instruction answers a next state: none stops the machine and none is refused. -/
theorem exec_total (i : Instr) (s : State) : ∃ t, exec i s = .next t := by
  cases i <;> exact settle_total s _

/-- The five things an instruction can do to the state. -/
inductive Effect (s : State) : State → Prop where
  | wroteReg (d : Fin 12) (v : Word) : Effect s (s.writeReg d v).advance
  | wroteMem (a : Nat) (v : Word) (h : a < memWords) : Effect s (s.writeMem a v).advance
  | jumped (p : InstrIndex) (h : p.toNat < 2 ^ 31) : Effect s (s.setPc p)
  | fellThrough : Effect s s.advance
  | faulted (c : Cause) (h : c ≠ .illegalOpcode) : Effect s (s.enterFault c)

theorem ArithOutcome.effect {f : Word → Word → Except Cause Word} {dst a b : Operand} {s t : State}
    (hf : ∀ x y, f x y ≠ .error .illegalOpcode) (h : ArithOutcome f dst a b s t) : Effect s t := by
  obtain ⟨d, x, y, r, -, -, -, -, rfl⟩ | ⟨c, hc, rfl⟩ := h
  · exact .wroteReg d r
  · refine .faulted c ?_
    rintro rfl
    obtain h | h | ⟨x, y, -, -, h⟩ := hc
    · cases h
    · cases h
    · exact hf x y h

theorem arith_ne_illegal {mode : OverflowMode} {z : Int} : arith mode z ≠ .error .illegalOpcode :=
  fun h => by cases (arith_error h).1

theorem regIdx_ne_illegal {op : Operand} : regIdx op ≠ .error .illegalOpcode :=
  fun h => by cases regIdx_error h <;> contradiction

theorem regVal_ne_illegal {s : State} {op : Operand} : regVal s op ≠ .error .illegalOpcode :=
  fun h => regIdx_ne_illegal (regVal_error h)

theorem litVal_ne_illegal {op : Operand} : litVal op ≠ .error .illegalOpcode :=
  fun h => by cases litVal_error h

/-- Everything any instruction can do, said once: the frame and the invariants follow from it. -/
theorem exec_effect {i : Instr} {s t : State} (h : exec i s = .next t) : Effect s t := by
  cases i with
  | add dst a b => exact (execAdd_next h).effect fun _ _ => arith_ne_illegal
  | sub dst a b => exact (execSub_next h).effect fun _ _ => arith_ne_illegal
  | mul dst a b => exact (execMul_next h).effect fun _ _ => arith_ne_illegal
  | div dst a b =>
    refine (execDiv_next h).effect fun x y hd => ?_
    obtain ⟨e, -⟩ | ⟨e, -⟩ := divide_error hd <;> cases e
  | ld addr dst =>
    obtain ⟨a, d, -, -, rfl⟩ | ⟨c, hc, rfl⟩ := execLd_next h
    · exact .wroteReg d _
    · refine .faulted c ?_
      rintro rfl
      obtain hc | ⟨a, -, hc⟩ := hc <;> exact regIdx_ne_illegal hc
  | str src addr =>
    obtain ⟨v, n, a, -, -, ha, rfl⟩ | ⟨c, hc, rfl⟩ := execStr_next h
    · exact .wroteMem a v (storeIndex_ok ha).1
    · refine .faulted c ?_
      rintro rfl
      obtain hc | ⟨v, -, hc⟩ | ⟨v, n, -, -, hc⟩ := hc
      · exact regVal_ne_illegal hc
      · exact litVal_ne_illegal hc
      · cases (storeIndex_error hc).1
  | mov src dst =>
    obtain ⟨v, d, -, -, rfl⟩ | ⟨c, hc, rfl⟩ := execMov_next h
    · exact .wroteReg d v
    · refine .faulted c ?_
      rintro rfl
      obtain hc | ⟨v, -, hc⟩ := hc
      · exact regVal_ne_illegal hc
      · exact regIdx_ne_illegal hc
  | cmp target literal =>
    obtain ⟨r, k, -, -, rfl⟩ | ⟨c, hc, rfl⟩ := execCmp_next h
    · exact .wroteReg r _
    · refine .faulted c ?_
      rintro rfl
      obtain hc | ⟨r, -, hc⟩ := hc
      · exact regIdx_ne_illegal hc
      · exact litVal_ne_illegal hc
  | jmp cond target =>
    obtain ⟨v, n, -, -, h0, rfl⟩ | ⟨c, hc, rfl⟩ := execJmp_next h
    · split
      · exact .jumped n (toNat_of_nonneg h0).2
      · exact .fellThrough
    · refine .faulted c ?_
      rintro rfl
      obtain hc | ⟨v, -, hc⟩ | ⟨v, n, -, -, hc⟩ := hc
      · exact regVal_ne_illegal hc
      · exact litVal_ne_illegal hc
      · cases (jumpTarget_error hc).1

/-! ### What every effect leaves alone -/

/-- No instruction writes the record of the last instruction, `PAUSED`, the program or the run's constants. -/
theorem Effect.rest {s t : State} (h : Effect s t) :
    t.lastValid = s.lastValid ∧ t.lastPc = s.lastPc ∧ t.lastWord = s.lastWord ∧ t.paused = s.paused ∧
    t.imem = s.imem ∧ t.trace = s.trace ∧ t.overflowMode = s.overflowMode := by
  cases h <;> exact ⟨rfl, rfl, rfl, rfl, rfl, rfl, rfl⟩

/-- An instruction either takes a fault or leaves both fault registers alone. -/
theorem Effect.fault {s t : State} (h : Effect s t) :
    (t.faultCause = s.faultCause ∧ t.faultPc = s.faultPc) ∨ ∃ c, c ≠ .illegalOpcode ∧ t = s.enterFault c := by
  cases h with
  | faulted c hc => exact .inr ⟨c, hc, rfl⟩
  | wroteReg d v => exact .inl ⟨rfl, rfl⟩
  | wroteMem a v _ => exact .inl ⟨rfl, rfl⟩
  | jumped p _ => exact .inl ⟨rfl, rfl⟩
  | fellThrough => exact .inl ⟨rfl, rfl⟩

/-- Every instruction keeps the canonical form of memory. -/
theorem Effect.memory_wf {s t : State} (h : Effect s t) (hm : s.mem.wf = true) : t.mem.wf = true := by
  cases h with
  | faulted c hc => exact hm
  | wroteReg d v => exact hm
  | wroteMem a v ha => exact memWrite_wf s.mem v hm ha
  | jumped p _ => exact hm
  | fellThrough => exact hm

end Sys2Proof.Machine
end

