-- ==== Sys2Proof/Laws/PerInstr.lean ====
section
/-! SUPPORT. The family OpcodeField: the encoded word of every instruction carries the instruction's own opcode number in
`W[127:120]`, the number of the opcode table (spec/30_encoding.md R94). -/

namespace Sys2Proof.Laws.OpcodeField

/-- The opcode field of the encoding is the instruction's opcode, one of the nine. -/
def Statement (i : Instr) : Prop := opcOf (encode i) = i.opcode ∧ 1 ≤ i.opcode.toNat ∧ i.opcode.toNat ≤ 9

theorem add (dst a b : Operand) : Statement (.add dst a b) := ⟨opcOf_packWord .., by simp [Instr.opcode], by simp [Instr.opcode]⟩
theorem sub (dst a b : Operand) : Statement (.sub dst a b) := ⟨opcOf_packWord .., by simp [Instr.opcode], by simp [Instr.opcode]⟩
theorem mul (dst a b : Operand) : Statement (.mul dst a b) := ⟨opcOf_packWord .., by simp [Instr.opcode], by simp [Instr.opcode]⟩
theorem div (dst a b : Operand) : Statement (.div dst a b) := ⟨opcOf_packWord .., by simp [Instr.opcode], by simp [Instr.opcode]⟩
theorem ld (addr dst : Operand) : Statement (.ld addr dst) := ⟨opcOf_packWord .., by simp [Instr.opcode], by simp [Instr.opcode]⟩
theorem str (src addr : Operand) : Statement (.str src addr) := ⟨opcOf_packWord .., by simp [Instr.opcode], by simp [Instr.opcode]⟩
theorem mov (src dst : Operand) : Statement (.mov src dst) := ⟨opcOf_packWord .., by simp [Instr.opcode], by simp [Instr.opcode]⟩
theorem cmp (target literal : Operand) : Statement (.cmp target literal) := ⟨opcOf_packWord .., by simp [Instr.opcode], by simp [Instr.opcode]⟩
theorem jmp (cond target : Operand) : Statement (.jmp cond target) := ⟨opcOf_packWord .., by simp [Instr.opcode], by simp [Instr.opcode]⟩

end Sys2Proof.Laws.OpcodeField
end

