-- ==== Sys2Proof/Laws/Step.lean ====
section
/-! SUPPORT. What a step can do, said once, and the run states it stops in. -/

namespace Sys2Proof.Machine

/-- Fetch finds a word exactly when `pc < PROG_LEN`. -/
theorem fetch_some_iff (s : State) : (∃ w, fetch s = some w) ↔ s.pc.toNat < s.progLen := by
  unfold fetch State.progLen
  constructor
  · rintro ⟨w, h⟩
    exact (List.getElem?_eq_some_iff.mp h).1
  · intro h
    exact ⟨s.imem[s.pc.toNat], List.getElem?_eq_getElem h⟩

/-- Running a word always answers a next state. -/
theorem runWord_total (w : InstrWord) (s : State) : ∃ t, runWord w s = .next t := by
  unfold runWord
  cases decode w with
  | error q => exact ⟨_, rfl⟩
  | ok i =>
    obtain ⟨t, h⟩ := exec_total i s
    exact ⟨retire w s t, by simp [h]⟩

/-- Running an illegal word. -/
theorem runWord_of_error {w : InstrWord} {q : Reject} (s : State) (h : decode w = .error q) :
    runWord w s = .next (s.enterFault .illegalOpcode) := by simp [runWord, h]

/-- Running a word that decodes. -/
theorem runWord_of_ok {w : InstrWord} {i : Instr} {s u : State} (h : decode w = .ok i) (he : exec i s = .next u) :
    runWord w s = .next (retire w s u) := by simp [runWord, h, he]

/-- All that running a word can do. -/
theorem runWord_next {w : InstrWord} {s t : State} (h : runWord w s = .next t) :
    (∃ q, decode w = .error q ∧ t = s.enterFault .illegalOpcode) ∨
    (∃ i u, decode w = .ok i ∧ exec i s = .next u ∧ t = retire w s u) := by
  cases hd : decode w with
  | error q => rw [runWord_of_error s hd, Host.Outcome.next.injEq] at h; exact .inl ⟨q, rfl, h.symm⟩
  | ok i =>
    obtain ⟨u, hu⟩ := exec_total i s
    rw [runWord_of_ok hd hu, Host.Outcome.next.injEq] at h
    exact .inr ⟨i, u, rfl, hu, h.symm⟩

/-- A step in FAULTED. -/
theorem step_of_faulted {s : State} (h : s.runState = .faulted) : step s = .fault .runFaulted := by
  simp [step, cycle, h]

/-- A step in PAUSED. -/
theorem step_of_paused {s : State} (h : s.runState = .paused) : step s = .fault .awaitingAck := by
  simp [step, cycle, h]

/-- A step in DONE. -/
theorem step_of_done {s : State} (h : s.runState = .done) : step s = .fault .runDone := by
  simp [step, cycle, h]

/-- A step in RUNNING runs the word fetched. -/
theorem step_of_running {s : State} {w : InstrWord} (h : s.runState = .running) (hf : fetch s = some w) :
    step s = runWord w s := by simp [step, cycle, h, hf]

/-- In RUNNING there is a word to fetch. -/
theorem fetch_of_running {s : State} (h : s.runState = .running) : ∃ w, fetch s = some w :=
  (fetch_some_iff s).mpr ((runState_running_iff s).mp h).2.1

/-- A step in RUNNING answers a next state. -/
theorem step_total_of_running {s : State} (h : s.runState = .running) : ∃ t, step s = .next t := by
  obtain ⟨w, hf⟩ := fetch_of_running h
  rw [step_of_running h hf]
  exact runWord_total w s

/-- A step that answers a next state began in RUNNING and ran the word it fetched. -/
theorem step_next {s t : State} (h : step s = .next t) :
    s.runState = .running ∧ ∃ w, fetch s = some w ∧ runWord w s = .next t := by
  cases hr : s.runState with
  | faulted => rw [step_of_faulted hr] at h; cases h
  | paused => rw [step_of_paused hr] at h; cases h
  | done => rw [step_of_done hr] at h; cases h
  | running =>
    obtain ⟨w, hf⟩ := fetch_of_running hr
    rw [step_of_running hr hf] at h
    exact ⟨rfl, w, hf, h⟩

/-- Everything a step can do, guards included. -/
theorem step_cases {s t : State} (h : step s = .next t) :
    s.faultCause = 0#3 ∧ s.pc.toNat < s.progLen ∧ s.paused = false ∧
    ∃ w, fetch s = some w ∧
      ((∃ q, decode w = .error q ∧ t = s.enterFault .illegalOpcode) ∨
       (∃ i u, decode w = .ok i ∧ exec i s = .next u ∧ Effect s u ∧
         ((u.faultCause = 0#3 ∧ t = { u with lastValid := true, lastPc := s.pc, lastWord := w, paused := s.trace }) ∨
          (∃ c, c ≠ .illegalOpcode ∧ u = s.enterFault c ∧ t = u)))) := by
  obtain ⟨hr, w, hf, hw⟩ := step_next h
  obtain ⟨h0, hpc, hp⟩ := (runState_running_iff s).mp hr
  refine ⟨h0, hpc, hp, w, hf, ?_⟩
  obtain ⟨q, hq, rfl⟩ | ⟨i, u, hi, hu, rfl⟩ := runWord_next hw
  · exact .inl ⟨q, hq, rfl⟩
  · have he := exec_effect hu
    refine .inr ⟨i, u, hi, hu, he, ?_⟩
    obtain ⟨hc, -⟩ | ⟨c, hc, rfl⟩ := he.fault
    · rw [h0] at hc
      refine .inl ⟨hc, ?_⟩
      obtain ⟨-, -, -, hpu, -, htr, -⟩ := he.rest
      rw [retire_of_ok hc, hpu, hp, htr, Bool.false_or]
    · exact .inr ⟨c, hc, rfl, retire_of_fault (Cause.code_ne_zero c)⟩

/-- `step` never refuses. -/
theorem step_ne_refused (s : State) (r : Refusal) : step s ≠ .refused r := by
  cases hr : s.runState with
  | faulted => rw [step_of_faulted hr]; exact fun h => by cases h
  | paused => rw [step_of_paused hr]; exact fun h => by cases h
  | done => rw [step_of_done hr]; exact fun h => by cases h
  | running =>
    obtain ⟨t, h⟩ := step_total_of_running hr
    rw [h]; exact fun h => by cases h

/-! ### Runs -/

/-- One step of a run of any machine that answers a next state. -/
theorem run_succ_of_next {M : Host.Core} {k : Nat} {s t : M.State} (h : M.step s = .next t) :
    M.run (k + 1) s = M.run k t := by simp [Host.Core.run, h]

/-- One step of a run of any machine that faults. -/
theorem run_succ_of_fault {M : Host.Core} {k : Nat} {s : M.State} {r : M.Fault} (h : M.step s = .fault r) :
    M.run (k + 1) s = .fault r := by simp [Host.Core.run, h]

/-- A run goes on where a step answers a next state. -/
theorem core_run_of_next {k : Nat} {s t : State} (h : step s = .next t) :
    Sys2Proof.core.run (k + 1) s = Sys2Proof.core.run k t := run_succ_of_next (M := Sys2Proof.core) h

/-- A run stops where a step stops. -/
theorem core_run_of_fault {k : Nat} {s : State} {r : Fault} (h : step s = .fault r) :
    Sys2Proof.core.run (k + 1) s = .fault r := run_succ_of_fault (M := Sys2Proof.core) h

/-- The same for a run whose host answers every pause. -/
theorem runAcked_of_next {k : Nat} {s t : State} (h : step s = .next t) :
    runAcked (k + 1) s = runAcked k (ack t) := by simp [runAcked, h]

/-- The same for a run whose host answers every pause. -/
theorem runAcked_of_fault {k : Nat} {s : State} {r : Fault} (h : step s = .fault r) :
    runAcked (k + 1) s = .fault r := by simp [runAcked, h]

/-! ### Acknowledgment -/

/-- The acknowledgment in PAUSED. -/
theorem ack_of_paused {s : State} (h : s.runState = .paused) : ack s = { s with paused := false } := by
  simp [ack, h]

/-- The acknowledgment in any other run state. -/
theorem ack_of_not_paused {s : State} (h : s.runState ≠ .paused) : ack s = s := by
  simp [ack, h]

/-- The acknowledgment of a machine whose `PAUSED` is 0. -/
theorem ack_of_clear {s : State} (h : s.paused = false) : ack s = s := by
  refine ack_of_not_paused fun hp => ?_
  rw [runState_paused_iff, h] at hp
  exact Bool.noConfusion hp.2

/-- The acknowledgment changes nothing but `PAUSED`. -/
theorem ack_eq (s : State) : ack s = { s with paused := (ack s).paused } := by
  by_cases h : s.runState = .paused
  · rw [ack_of_paused h]
  · rw [ack_of_not_paused h]

end Sys2Proof.Machine
end

