-- ==== Sys2Proof/Tests/Slice0.lean ====
section
/-! SUPPORT. Tests against the spec's own vectors (spec/95_test_vectors.md, named by their ids there; words from
spec/30_encoding.md section 7), the refusals of the well-formedness check, and for every statement with hypotheses a
concrete state and operands that meet them (`wit_…`). -/

namespace Sys2Proof.Tests
open Sys2Proof.Machine Sys2Proof.Claims

/-! ### Small states -/

/-- The reset state with some registers set, and a program. -/
def start (rs : List (Fin 12 × Word)) (prog : List InstrWord) : State :=
  { rs.foldl (fun s p => s.writeReg p.1 p.2) State.reset with imem := prog }

/-- The same in `wrap` mode. -/
def startWrap (rs : List (Fin 12 × Word)) (prog : List InstrWord) : State :=
  { start rs prog with overflowMode := .wrap }

/-- What a test looks at in a next state. -/
def peek {α : Type} (f : State → α) : Host.Outcome State Fault Refusal → Option α
  | .next t => some (f t)
  | .fault _ => none
  | .refused _ => none

/-- A register and `pc` after the step. -/
def regAndPc (i : Fin 12) (t : State) : Word × InstrIndex := (t.readReg i, t.pc)

/-- Cause, fault index, `pc`. -/
def faultView (t : State) : BitVec 3 × InstrIndex × InstrIndex := (t.faultCause, t.faultPc, t.pc)

/-- The operands `r11`, `r12`, one malformed. -/
def r11 : Operand := .reg 11
def r12 : Operand := .reg 12
def badOp : Operand := .bad 0xFF 0

/-! ### Decoding: one word per constructor, written out from the encoding tables -/

theorem test_decode_add : decode 0x01010000000201000000000100000001 = .ok (.add (.reg 2) (.reg 0) (.reg 1)) := rfl
theorem test_decode_sub : decode 0x02010000000001000000000000000001 = .ok (.sub (.reg 0) (.reg 0) (.lit 1)) := rfl
theorem test_decode_mul : decode 0x030100000006010000000400FFFFFFFE = .ok (.mul (.reg 6) (.reg 4) (.lit (-2))) := rfl
theorem test_decode_div : decode 0x04010000000001000000010100000002 = .ok (.div (.reg 0) (.reg 1) (.reg 2)) := rfl
theorem test_decode_ld : decode 0x05010000000001000000010000000000 = .ok (.ld (.reg 0) (.reg 1)) := rfl
theorem test_decode_str : decode 0x060100000000000000000A0000000000 = .ok (.str (.reg 0) (.lit 10)) := rfl
theorem test_decode_mov : decode 0x070100000001010000000200DEADBEEF = .ok (.mov (.reg 1) (.reg 2)) := rfl
theorem test_decode_cmp : decode 0x08010000000000000000070000000000 = .ok (.cmp (.reg 0) (.lit 7)) := rfl
theorem test_decode_jmp : decode 0x09010000000000000000050000000000 = .ok (.jmp (.reg 0) (.lit 5)) := rfl

theorem test_encode_three : encode (.div (.reg 0) (.reg 1) (.reg 2)) = 0x04010000000001000000010100000002 := by decide
theorem test_encode_two : encode (.str (.reg 0) (.lit 10)) = 0x060100000000000000000A0000000000 := by decide

/-- VE1 to VE3 and VF6: the first and the last opcode outside the map. -/
theorem test_decode_illegal :
    decode 0 = .error (.illegalOpcode 0) ∧
    decode 0x0A010000000001000000010000000000 = .error (.illegalOpcode 0x0A) ∧
    decode 0xFF010000000001000000010000000000 = .error (.illegalOpcode 0xFF) := ⟨rfl, rfl, rfl⟩

theorem test_decodeTableWord :
    decodeTableWord 128 0x01010000000201000000000100000001 = some (.add (.reg 2) (.reg 0) (.reg 1)) ∧
    decodeTableWord 128 0 = none := by decide

/-! ### Well-formedness: one ill-formed term for each check -/

theorem test_wf_kinds :
    Operand.wf (.bad 0 5) = false ∧ Operand.wf (.bad 1 5) = false ∧
    Operand.wf (.bad 2 5) = true ∧ Operand.wf (.bad 0xFF 0) = true ∧ Operand.wf (.reg 0xFFFFFFFF) = true := by decide

theorem test_wf_add : Instr.wf (.add (.bad 0 0) r11 r11) = false ∧ Instr.wf (.add r11 (.bad 1 0) r11) = false ∧
    Instr.wf (.add r11 r11 (.bad 0 0)) = false := by decide
theorem test_wf_sub : Instr.wf (.sub (.bad 0 0) r11 r11) = false ∧ Instr.wf (.sub r11 (.bad 1 0) r11) = false ∧
    Instr.wf (.sub r11 r11 (.bad 0 0)) = false := by decide
theorem test_wf_mul : Instr.wf (.mul (.bad 0 0) r11 r11) = false ∧ Instr.wf (.mul r11 (.bad 1 0) r11) = false ∧
    Instr.wf (.mul r11 r11 (.bad 0 0)) = false := by decide
theorem test_wf_div : Instr.wf (.div (.bad 0 0) r11 r11) = false ∧ Instr.wf (.div r11 (.bad 1 0) r11) = false ∧
    Instr.wf (.div r11 r11 (.bad 0 0)) = false := by decide
theorem test_wf_ld : Instr.wf (.ld (.bad 0 0) r11) = false ∧ Instr.wf (.ld r11 (.bad 1 0)) = false := by decide
theorem test_wf_str : Instr.wf (.str (.bad 0 0) r11) = false ∧ Instr.wf (.str r11 (.bad 1 0)) = false := by decide
theorem test_wf_mov : Instr.wf (.mov (.bad 0 0) r11) = false ∧ Instr.wf (.mov r11 (.bad 1 0)) = false := by decide
theorem test_wf_cmp : Instr.wf (.cmp (.bad 0 0) r11) = false ∧ Instr.wf (.cmp r11 (.bad 1 0)) = false := by decide
theorem test_wf_jmp : Instr.wf (.jmp (.bad 0 0) r11) = false ∧ Instr.wf (.jmp r11 (.bad 1 0)) = false := by decide

/-! ### One step of each instruction -/

/-- VA3: the sources are the destination. -/
theorem test_add_same_register :
    peek (regAndPc 11) (step (start [(11, -5)] [0x01010000000B010000000B010000000B])) = some (-10, 1) := by decide
/-- VA21, `wrap` mode. -/
theorem test_add_wraps :
    peek (regAndPc 0) (step (startWrap [] [0x010100000000008000000000FFFFFFFF])) = some (2147483647, 1) := by decide
/-- VA5: OP2 minus OP3. -/
theorem test_sub_order :
    peek (regAndPc 0) (step (start [] [0x02010000000000000000030000000005])) = some (-2, 1) := by decide
/-- VA22, `fault` mode. -/
theorem test_sub_overflow_faults :
    peek faultView (step (start [] [0x02010000000000800000000000000001])) = some (6, 0, 0) := by decide
/-- VA8. -/
theorem test_mul_largest_that_fits :
    peek (regAndPc 0) (step (start [] [0x030100000000000000B504000000B505])) = some (2147441940, 1) := by decide
/-- VA25, `wrap` mode. -/
theorem test_mul_wraps :
    peek (regAndPc 0) (step (startWrap [] [0x030100000000000000B505000000B505])) = some (-2147479015, 1) := by decide
/-- VA16: toward zero, not down. -/
theorem test_div_toward_zero :
    peek (regAndPc 7) (step (start [(6, -84)] [0x04010000000701000000060000000005])) = some (-16, 1) := by decide
/-- VF5: no overflow question arises. -/
theorem test_div_by_zero :
    peek faultView (step (start [] [0x04010000000000800000000000000000])) = some (4, 0, 0) := by decide
/-- VB8: the address is the index 5, not the value 99 of the register. -/
theorem test_ld_by_index : peek (regAndPc 5)
    (step { start [(5, 99)] [0x05010000000501000000050000000000] with mem := [(5, 1234)] }) = some (1234, 1) := by decide
/-- VB13. -/
theorem test_ld_literal_address_faults :
    peek faultView (step (start [] [0x05000000000301000000010000000000])) = some (2, 0, 0) := by decide
/-- VB1: the highest address, and the pc. -/
theorem test_str_highest : peek (fun t => (t.mem, t.pc))
    (step (start [(0, 42)] [0x060100000000000000002F0000000000])) = some ([(47, 42)], 1) := by decide
/-- VB3: the first address past the end. -/
theorem test_str_past_the_end :
    peek faultView (step (start [(0, 42)] [0x06010000000000000000300000000000])) = some (5, 0, 0) := by decide
/-- VE4: source first; the third field is not looked at. -/
theorem test_mov_ignores_third_field :
    peek (regAndPc 2) (step (start [(1, 77)] [0x0701000000010100000002FFDEADBEEF])) = some (77, 1) := by decide
/-- VC5. -/
theorem test_mov_literal_destination_faults :
    peek faultView (step (start [] [0x07010000000100000000050000000000])) = some (2, 0, 0) := by decide
/-- VC11: the compared register becomes 1. -/
theorem test_cmp_equal :
    peek (regAndPc 0) (step (start [(0, -2147483648)] [0x08010000000000800000000000000000])) = some (1, 1) := by decide
/-- VC8. -/
theorem test_cmp_unequal :
    peek (regAndPc 3) (step (start [(3, 6)] [0x08010000000300000000050000000000])) = some (0, 1) := by decide
/-- VD4: taken, far past the program. -/
theorem test_jmp_past_program :
    peek (regAndPc 0) (step (start [] [0x090100000000007FFFFFFF0000000000])) = some (0, 2147483647) := by decide
/-- VD7: the target is checked although the jump is not taken. -/
theorem test_jmp_negative_faults_untaken :
    peek faultView (step (start [(1, 5)] [0x09010000000100FFFFFFFF0000000000])) = some (7, 0, 0) := by decide

/-! ### Faults, trace mode, reset, the loader -/

/-- VF6. -/
theorem test_illegal_before_operands :
    peek faultView (step (start [] [0x00FF00000000FF00000000FF00000000])) = some (1, 0, 0) := by decide
/-- VF1: the second operand's range before the third's form. -/
theorem test_priority_left_to_right :
    peek faultView (step (start [] [0x010100000000010000000CFF00000000])) = some (3, 0, 0) := by decide
/-- VE8: index 28. -/
theorem test_index_not_truncated :
    peek faultView (step (start [] [0x01010000001C00000000010000000001])) = some (3, 0, 0) := by decide

/-- VH3: a trace-mode step pauses, and the acknowledgment goes on (the next word is `add r1 r0 1`). -/
theorem test_trace_pause :
    peek (fun t => (t.pc, t.paused, t.lastPc, (inspect t).lastText, t.runState, (ack t).runState))
      (step { start [] [0x01010000000000000000020000000003, 0x01010000000101000000000000000001] with trace := true })
    = some (1, true, 0, some "add r0 2 3".toList, .paused, .running) := rfl

/-- VH4: a faulting step of trace mode does not pause. -/
theorem test_trace_fault :
    peek (fun t => (t.paused, t.runState)) (step { start [] [0] with trace := true }) = some (false, .faulted) := by decide

/-- VH5: an empty program has ended at reset. -/
theorem test_empty_program : State.reset.runState = .done := by decide

/-- VH2: reset clears the machine and keeps the program. -/
theorem test_reset_keeps_program :
    hostReset { start [(3, 7)] [5] with pc := 1, faultCause := 4, lastValid := true, mem := [(2, 9)] } = start [] [5] := by
  decide

/-- The placed word is the one that runs, wherever `pc` is. -/
theorem test_withFetchWord :
    peek (regAndPc 0) (step ({ State.reset with pc := 3 }.withFetchWord 128 0x01010000000000000000020000000003))
    = some (5, 4) := by decide

/-- R45: the ports of `sub r1 r11 2` and of `str r0 47`. -/
theorem test_ports :
    ports (start [(11, -3)] [0x020100000001010000000B0000000002]) =
      some { fetch := (0, 0x020100000001010000000B0000000002), readA := some { index := 11, data := -3 }, readB := none,
             regWrite := some { index := 1, data := -5 }, memRead := none, memWrite := none } ∧
    (ports (start [(0, 42)] [0x060100000000000000002F0000000000])).map PortUse.memWrite =
      some (some { index := 47, data := 42 }) := by decide

/-- S1: the assembler on the source's lines, and the two lines that come back in another spelling. -/
theorem test_assembler :
    Asm.asm "mul r6 r4 -2".toList = .ok 0x030100000006010000000400FFFFFFFE ∧
    Asm.asm "str r0 10".toList = .ok 0x060100000000000000000A0000000000 ∧
    Asm.asm "add r03 007 -0".toList = .ok 0x01010000000300000000070000000000 ∧
    Asm.format 0x01010000000300000000070000000000 = some "add r3 7 0".toList ∧
    Asm.format 0x010100000000FF000000000000000001 = some "add r0 ? 1".toList := by
  refine ⟨rfl, rfl, rfl, rfl, rfl⟩

/-- S2, S3. -/
theorem test_parse_errors :
    Asm.asm "ADD r0 1 1".toList = .error .unknownKeyword ∧ Asm.asm "".toList = .error .unknownKeyword ∧
    Asm.asm " add r0 1 1".toList = .error .unknownKeyword ∧ Asm.asm "add r0 1".toList = .error .wrongArity ∧
    Asm.asm "add r0  1 2".toList = .error .wrongArity ∧ Asm.asm "jmp r0 5 0".toList = .error .wrongArity := by
  refine ⟨rfl, rfl, rfl, rfl, rfl, rfl⟩

/-- R111, R115: an empty token fails in the parser and the load although the token count is right; the assembler alone
gives the word with a malformed operand. -/
theorem test_empty_tokens :
    Asm.parse "add r0  1".toList = .error .emptyToken ∧ Asm.loadLine "jmp r0 ".toList = .error .emptyToken ∧
    Asm.asm "jmp r0 ".toList = .ok 0x090100000000FF000000000000000000 := ⟨rfl, rfl, rfl⟩

/-- V-G: operand tokens. -/
theorem test_operand_tokens :
    Asm.operandOf "r4294967296".toList = .reg 0xFFFFFFFF ∧ Asm.operandOf "-2147483648".toList = .lit 0x80000000 ∧
    Asm.operandOf "2147483648".toList = .bad 0xFF 0 ∧ Asm.operandOf "+5".toList = .bad 0xFF 0 ∧
    Asm.operandOf "r".toList = .bad 0xFF 0 ∧ Asm.operandOf "r-1".toList = .bad 0xFF 0 ∧
    Asm.operandOf "R3".toList = .bad 0xFF 0 ∧ Asm.operandOf "".toList = .bad 0xFF 0 := by decide

/-! ### Witnesses: the hypotheses of the statements can be met, clause by clause -/

/-- `add r0 2 3`. -/
def addWord : InstrWord := 0x01010000000000000000020000000003

/-- A machine about to run one word. -/
def running (w : InstrWord) : State := start [(0, 5), (11, -3)] [w]

theorem wit_IllegalOpcodesFault :
    (running 0).runState = .running ∧ fetch (running 0) = some 0 ∧ (opcOf 0).toNat = 0 ∧
    fetch (running (0x0A <<< 120)) = some (0x0A <<< 120) ∧ (opcOf (0x0A <<< 120)).toNat = 10 ∧
    (opcOf (0xFF <<< 120)).toNat = 255 ∧
    (opcOf addWord).toNat = 1 ∧ (peek id (step (running addWord))).isSome = true ∧
    (opcOf (0x09 <<< 120)).toNat = 9 ∧ (peek id (step (running (0x09 <<< 120)))).isSome = true := by decide

theorem wit_IllegalOpcodesFault_line : Asm.asm "jmp r0 5".toList = .ok 0x09010000000000000000050000000000 := rfl

theorem wit_DecodeGivesBackEncoded :
    Instr.wf (.add (.reg 0xFFFFFFFF) (.lit 0x80000000) (.bad 2 0xFFFFFFFF)) = true ∧
    Instr.wf (.jmp (.bad 0xFF 0) (.lit (-1))) = true := by decide

theorem wit_EncodeGivesBackDecoded :
    decode 0x04010000000001000000010100000002 = .ok (.div (.reg 0) (.reg 1) (.reg 2)) ∧
    (opcOf 0x04010000000001000000010100000002).toNat ≤ 4 ∧
    decode 0x070100000001010000000200DEADBEEF = .ok (.mov (.reg 1) (.reg 2)) := ⟨rfl, by decide, rfl⟩

theorem wit_ThirdFieldIgnored :
    (opcOf 0x05010000000001000000010000000000).toNat = 5 ∧ (opcOf 0x090100000000000000000501FFFFFFFF).toNat = 9 ∧
    (0x09010000000000000000050000000000 : InstrWord).extractLsb' 40 88 =
      (0x090100000000000000000501FFFFFFFF : InstrWord).extractLsb' 40 88 ∧
    (peek id (runWord 0x09010000000000000000050000000000 (running addWord))).isSome = true := by decide

theorem wit_OperandFieldsResolve :
    kindOf 0x0080000000 = 0x00#8 ∧ kindOf 0x010000000B = 0x01#8 ∧ (payOf 0x010000000B).toNat = 11 ∧
    kindOf 0x010000000C = 0x01#8 ∧ (payOf 0x010000000C).toNat = 12 ∧ kindOf 0x0200000000 ≠ 0x00#8 ∧
    kindOf 0x0200000000 ≠ 0x01#8 ∧ regIdx (decodeOperand 0x010000000B) = .ok 11 ∧
    regIdx (decodeOperand 0x010000000C) = .error .operandRangeError := by
  refine ⟨by decide, by decide, by decide, by decide, by decide, by decide, by decide, rfl, rfl⟩

/-- Tokens for the assembler clauses, and words for the decoding clauses, of the instruction rules. -/
theorem wit_WrittenAs :
    ' ' ∉ "r0".toList ∧ ' ' ∉ "".toList ∧ ' ' ∉ "-7".toList ∧ opcOf addWord = 0x01 ∧ opcOf (0x02 <<< 120) = 0x02 ∧
    opcOf (0x03 <<< 120) = 0x03 ∧ opcOf (0x04 <<< 120) = 0x04 ∧ opcOf (0x05 <<< 120) = 0x05 ∧
    opcOf (0x06 <<< 120) = 0x06 ∧ opcOf (0x07 <<< 120) = 0x07 ∧ opcOf (0x08 <<< 120) = 0x08 ∧
    opcOf (0x09 <<< 120) = 0x09 := by decide

/-- The operand hypotheses of the four arithmetic rules: all resolve; the first, the second, the third faults. -/
theorem wit_ArithmeticOperands :
    regIdx r11 = .ok 11 ∧ val (running addWord) r11 = .ok (-3) ∧ val (running addWord) (.lit 7) = .ok 7 ∧
    regIdx r12 = .error .operandRangeError ∧ regIdx (.lit 3) = .error .operandFormatError ∧
    val (running addWord) r12 = .error .operandRangeError ∧ val (running addWord) badOp = .error .operandFormatError :=
  ⟨rfl, rfl, rfl, rfl, rfl, rfl, rfl⟩

/-- `INT_MAX` and `INT_MIN` fit, the integers just outside do not; both are results of the operations. -/
theorem wit_Narrowed :
    Fits ((2147483647 : Word).toInt + (0 : Word).toInt) ∧ ¬ Fits ((2147483647 : Word).toInt + (1 : Word).toInt) ∧
    Fits ((0x80000000 : Word).toInt - (0 : Word).toInt) ∧ ¬ Fits ((0x80000000 : Word).toInt - (1 : Word).toInt) ∧
    Fits ((46340 : Word).toInt * (46341 : Word).toInt) ∧ ¬ Fits ((46341 : Word).toInt * (46341 : Word).toInt) ∧
    (start [] []).overflowMode = .fault ∧ (startWrap [] []).overflowMode = .wrap := by
  unfold Fits; decide

theorem wit_DivFollowsItsRule :
    (0 : Word) = 0#32 ∧ (1 : Word) ≠ 0#32 ∧
    Fits ((-7 : Word).toInt.sign * (2 : Word).toInt.sign * (((-7 : Word).toInt.natAbs / (2 : Word).toInt.natAbs : Nat) : Int)) ∧
    ¬ Fits ((0x80000000 : Word).toInt.sign * (-1 : Word).toInt.sign *
      (((0x80000000 : Word).toInt.natAbs / (-1 : Word).toInt.natAbs : Nat) : Int)) := by
  unfold Fits; decide

theorem wit_DivisionTruncatesTowardZero :
    val (running addWord) (.lit (-7)) = .ok (-7) ∧ val (running addWord) (.lit 0x80000000) = .ok 0x80000000 ∧
    (2 : Word) ≠ 0#32 ∧ ¬ ((-7 : Word).toInt = intMin ∧ (2 : Word).toInt = -1) ∧
    ¬ ((0x80000000 : Word).toInt = intMin ∧ (1 : Word).toInt = -1) ∧
    (0x80000000 : Word).toInt = intMin ∧ (-1 : Word).toInt = -1 := by
  refine ⟨rfl, rfl, by decide, by decide, by decide, by decide, by decide⟩

theorem wit_OverflowOnlyWhere :
    fits32 ((2147483647 : Word).toInt + (1 : Word).toInt) = false ∧
    fits32 ((0 : Word).toInt - (0x80000000 : Word).toInt) = false ∧
    fits32 (tdiv (0x80000000 : Word).toInt (-1 : Word).toInt) = false := by decide

theorem wit_LoadFollowsItsRule :
    regIdx (.reg 0) = .ok 0 ∧ regIdx r11 = .ok 11 ∧ regIdx r12 = .error .operandRangeError ∧
    regIdx (.lit 5) = .error .operandFormatError := ⟨rfl, rfl, rfl, rfl⟩

theorem wit_StoreFollowsItsRule :
    regVal (running addWord) (.reg 0) = .ok 5 ∧ regVal (running addWord) (.lit 5) = .error .operandFormatError ∧
    litVal r11 = .error .operandFormatError ∧ litVal (.lit 47) = .ok 47 ∧ (running addWord).mem.wf = true ∧
    (0 : Word).toInt = 0 ∧ (47 : Word).toInt = 47 ∧ 47 < (48 : Word).toInt ∧ (-1 : Word).toInt < 0 := by
  refine ⟨rfl, rfl, rfl, rfl, by decide, by decide, by decide, by decide, by decide⟩

theorem wit_MoveFollowsItsRule :
    regVal (running addWord) (.reg 11) = .ok (-3) ∧ regIdx (.reg 0) = .ok 0 ∧ regIdx r12 = .error .operandRangeError ∧
    regVal (running addWord) badOp = .error .operandFormatError := ⟨rfl, rfl, rfl, rfl⟩

theorem wit_CompareFollowsItsRule :
    regIdx (.reg 0) = .ok 0 ∧ ((running addWord).readReg 0).toInt = (5 : Word).toInt ∧
    ((running addWord).readReg 0).toInt ≠ (-5 : Word).toInt ∧ litVal (.lit 5) = .ok 5 ∧
    litVal r11 = .error .operandFormatError ∧ regIdx badOp = .error .operandFormatError := by
  refine ⟨rfl, by decide, by decide, rfl, rfl, rfl⟩

theorem wit_JumpFollowsItsRule :
    regVal (running addWord) (.reg 1) = .ok 0 ∧ (0 : Word).toInt = 0 ∧ regVal (running addWord) r11 = .ok (-3) ∧
    (-3 : Word).toInt ≠ 0 ∧ litVal (.lit 0) = .ok 0 ∧ litVal (.lit (-1)) = .ok (-1) ∧ (-1 : Word).toInt < 0 ∧
    0 ≤ (2147483647 : Word).toInt ∧ regVal (running addWord) r12 = .error .operandRangeError ∧
    litVal r11 = .error .operandFormatError := by
  refine ⟨rfl, by decide, rfl, by decide, rfl, rfl, by decide, by decide, rfl, rfl⟩

theorem wit_StoreThenLoad :
    (running addWord).mem.wf = true ∧ regIdx (.reg 0) = .ok 0 ∧ regIdx r11 = .ok 11 ∧
    (11 : Word).toInt = ((11 : Fin 12).val : Int) ∧ (10 : Word).toInt ≠ ((0 : Fin 12).val : Int) ∧
    0 ≤ (10 : Word).toInt ∧ (47 : Word).toInt ≤ 47 := by
  refine ⟨by decide, rfl, rfl, by decide, by decide, by decide, by decide⟩

theorem wit_CompareAndJumpIdiom :
    regIdx (.reg 0) = .ok 0 ∧ 0 ≤ (0 : Word).toInt ∧ ((running addWord).readReg 0).toInt = (5 : Word).toInt ∧
    ((running addWord).readReg 0).toInt ≠ (7 : Word).toInt := by refine ⟨rfl, by decide, by decide, by decide⟩

theorem wit_ConstantAndNopIdioms : regIdx r11 = .ok 11 := rfl

/-- Every instruction answers a next state from a running machine, so the frames speak of something. -/
theorem wit_Frames :
    (peek id (exec (.add (.reg 1) r11 (.lit 2)) (running 0))).isSome = true ∧
    (peek id (exec (.sub (.reg 1) r11 (.lit 2)) (running 0))).isSome = true ∧
    (peek id (exec (.mul (.reg 1) r11 (.lit 2)) (running 0))).isSome = true ∧
    (peek id (exec (.div (.reg 1) r11 (.lit 2)) (running 0))).isSome = true ∧
    (peek id (exec (.ld r11 (.reg 0)) (running 0))).isSome = true ∧
    (peek id (exec (.str (.reg 0) (.lit 47)) (running 0))).isSome = true ∧
    (peek id (exec (.mov (.reg 0) r11) (running 0))).isSome = true ∧
    (peek id (exec (.cmp (.reg 0) (.lit 5)) (running 0))).isSome = true ∧
    (peek id (exec (.jmp (.reg 1) (.lit 5)) (running 0))).isSome = true := by decide

/-- The premises inside the frames: a register `dst` does not name, a literal that is a store address and one that is
none. -/
theorem wit_Frames_clauses :
    regIdx r11 ≠ .ok 0 ∧ regIdx r12 ≠ .ok 0 ∧ litVal (.lit 47) = .ok 47 ∧ storeIndex 47 = .ok 47 ∧
    storeIndex 0 = .ok 0 ∧ storeIndex 48 = .error .outOfRangeMemoryAccess := by
  refine ⟨by simp [regIdx, r11], by simp [regIdx, r12], rfl, rfl, rfl, rfl⟩

theorem wit_RegistersHoldWhatWasWritten :
    ((running 0).writeReg 11 7).readReg 11 = 7 ∧ ((running 0).writeReg 11 7).readReg 0 = 5 := by decide

theorem wit_MemoryReadsLastWrite : Memory.wf [(0, 1), (47, -1)] = true ∧ (47 : Nat) < 48 ∧ (46 : Nat) ≠ 47 := by decide

theorem wit_CanonicalMemoriesAreEqual :
    Memory.wf [(0, 1), (47, -1)] = true ∧
    ∀ a : Nat, a < 48 → memRead [(0, 1), (47, -1)] a = memRead (memWrite [(47, -1)] 0 1) a := by decide

/-- A step that faults. -/
theorem wit_FaultsArePrecise : peek faultView (step (running 0)) = some (1, 0, 0) := by decide

theorem wit_FaultsAreFinal :
    (peek id (step (running addWord))).isSome = true ∧ ({ running 0 with faultCause := 7 } : State).faultCause ≠ 0#3 := by
  decide

/-- Every code of the matrix is recorded by some instruction. -/
theorem wit_FaultMatrix :
    (running 0).faultCause = 0#3 ∧
    peek faultView (exec (.ld badOp r11) (running 0)) = some (2, 0, 0) ∧
    peek faultView (exec (.mov r12 r11) (running 0)) = some (3, 0, 0) ∧
    peek faultView (exec (.div r11 r11 (.lit 0)) (running 0)) = some (4, 0, 0) ∧
    peek faultView (exec (.str r11 (.lit 48)) (running 0)) = some (5, 0, 0) ∧
    peek faultView (exec (.sub r11 (.lit 0x80000000) (.lit 1)) (running 0)) = some (6, 0, 0) ∧
    peek faultView (exec (.jmp r11 (.lit (-1))) (running 0)) = some (7, 0, 0) := by decide

theorem wit_OverflowFaultOnlyInFaultMode :
    peek faultView (step (running 0x010100000000007FFFFFFF0000000001)) = some (6, 0, 0) ∧
    fetch (running 0x010100000000007FFFFFFF0000000001) = some 0x010100000000007FFFFFFF0000000001 := by decide

/-- The hypotheses of the statements about one step, at the step of `add r0 2 3`. -/
theorem wit_Step :
    (running addWord).faultCause = 0#3 ∧ (running addWord).paused = false ∧
    (running addWord).imem[(running addWord).pc.toNat]? = some addWord ∧ fetch (running addWord) = some addWord ∧
    decode addWord = .ok (.add (.reg 0) (.lit 2) (.lit 3)) ∧
    peek (fun t => (t.faultCause, t.pc)) (step (running addWord)) = some (0, 1) ∧
    isJump (.add (.reg 0) (.lit 2) (.lit 3)) = false := by
  refine ⟨rfl, rfl, rfl, rfl, rfl, by decide, rfl⟩

/-- The same at a taken and at an untaken jump, and at a word of zeros, which faults. -/
theorem wit_Step_jump :
    decode 0x09010000000100000000050000000000 = .ok (.jmp (.reg 1) (.lit 5)) ∧
    peek (fun t => (t.faultCause, t.pc)) (step (running 0x09010000000100000000050000000000)) = some (0, 5) ∧
    peek (fun t => (t.faultCause, t.pc)) (step (running 0x09010000000000000000050000000000)) = some (0, 1) ∧
    peek (fun t => (t.faultCause, t.pc)) (step (running 0)) = some (1, 0) := by
  refine ⟨rfl, by decide, by decide, by decide⟩

/-- `withFetchWord`'s numbers: the smallest and the largest. -/
theorem wit_withFetchWord : (0 : Nat) < 2 ^ 128 ∧ 2 ^ 128 - 1 < (2 ^ 128 : Nat) := by decide

/-- A state of each run state. -/
theorem wit_RunStates :
    (running addWord).runState = .running ∧ (start [] []).runState = .done ∧
    ({ running addWord with paused := true } : State).runState = .paused ∧
    ({ start [] [] with paused := true } : State).runState = .paused ∧
    ({ running addWord with faultCause := 4 } : State).runState = .faulted := by decide

/-- What a trace-mode host does and sees. -/
theorem wit_TracePauses :
    peek (fun t => (t.faultCause, t.paused)) (step { running addWord with trace := true }) = some (0, true) ∧
    peek (fun t => (t.faultCause, t.paused)) (step { running 0 with trace := true }) = some (1, false) := by decide

theorem wit_TraceAndBatchRunsAgree :
    ({ running addWord with trace := true } : State).paused = false ∧
    (peek id (runAcked 1 { running addWord with trace := true })).isSome = true := by decide

/-- A state reached from another by a step. -/
theorem reaches_step {s t : State} (h : step s = .next t) : Reaches s t := .step .refl h

theorem wit_ProgramIsImmutable : Reaches (running addWord) (hostReset (ack (running addWord))) := .reset (.ack .refl)

theorem wit_HighMemoryIsUnreadable :
    Memory.wf [(3, 4), (12, 7)] = true ∧ Memory.wf [(3, 4), (47, 8)] = true ∧
    SameButHighMemory { running addWord with mem := [(3, 4), (12, 7)] } { running addWord with mem := [(3, 4), (47, 8)] } ∧
    (peek id (step { running addWord with mem := [(3, 4), (12, 7)] })).isSome = true :=
  ⟨by decide, by decide, ⟨rfl, by decide⟩, by decide⟩

/-- Both ends of a batch run. -/
theorem wit_BatchRunsEndInTwoWays :
    (running addWord).trace = false ∧ (running addWord).paused = false ∧
    Sys2Proof.core.run 2 (running addWord) = .fault Fault.runDone ∧
    Sys2Proof.core.run 2 (running 0) = .fault Fault.runFaulted ∧ (start [] []).imem = [] := ⟨rfl, rfl, rfl, rfl, rfl⟩

theorem wit_ResetValues : 0 < (running addWord).progLen ∧ (start [] []).progLen = 0 := by decide

/-- One line fits in every program memory. -/
theorem one_le_imemDepth : 1 ≤ Config.imemDepth := Nat.succ_le_succ (Nat.zero_le _)

/-- The machine a one-line program boots into. -/
def booted : State := { State.reset with imem := [0x09010000000000000000050000000000], trace := true }

theorem wit_boot : boot ["jmp r0 5".toList] true State.reset = .ok booted := by
  have h : Asm.asmAll ["jmp r0 5".toList] = .ok [0x09010000000000000000050000000000] := rfl
  rw [boot, h]
  exact if_pos one_le_imemDepth

/-- The invariant holds of that machine, and it steps: the invariant statements and the safety statement speak of it. -/
theorem wit_StateInv : StateInv booted where
  memory := by decide
  program := one_le_imemDepth
  pcRange := by decide
  faultNotPaused := by decide
  faultAtPc := by decide
  pausedInTrace := by decide
  freshIsReset := fun _ => ⟨rfl, rfl, rfl⟩
  lastInProgram := fun h => absurd h (by decide)

theorem wit_StepKeepsInvariant :
    peek (fun t => (t.pc, t.paused, t.faultCause)) (step booted) = some (5, true, 0) ∧ fetch booted = some 0x09010000000000000000050000000000 := by
  decide

theorem wit_HostMovesKeepInvariant :
    hostMove .acknowledge booted = .ok (ack booted) ∧ hostMove .reset booted = .ok (hostReset booted) ∧
    hostMove (.load ["jmp r0 5".toList] true) State.reset = .ok booted := ⟨rfl, rfl, wit_boot⟩

theorem wit_BootedMachineNeverMeetsIllegalOpcode : ∃ t, step booted = .next t ∧ Reaches booted t := by
  obtain ⟨t, h⟩ := step_total_of_running (s := booted) rfl
  exact ⟨t, h, reaches_step h⟩

theorem wit_LoadIsAllOrNothing :
    Asm.parse "nop".toList = .error .unknownKeyword ∧ Asm.parse "jmp r0 5".toList = .ok (.jmp (.reg 0) (.lit 5)) ∧
    ["jmp r0 5".toList].length ≤ Config.imemDepth := ⟨rfl, rfl, one_le_imemDepth⟩

theorem wit_InspectionShowsState :
    ({ running 0 with faultCause := 1 } : State).faultCause ≠ 0#3 ∧ (running 0).faultCause = 0#3 ∧ (47 : Nat) < 48 ∧
    ({ running 0 with lastValid := true } : State).lastValid = true ∧ (running 0).lastValid = false := by decide

/-- A step that uses read ports and a write port, one that reads memory, one that faults. -/
theorem wit_PortsCarryTheStep :
    (ports (running 0x020100000001010000000B010000000B)).isSome = true ∧
    ((ports (running 0x05010000000001000000010000000000)).bind PortUse.memRead).isSome = true ∧
    (ports (running 0)).isSome = true := by decide

theorem wit_AssemblerFollowsItsRule :
    Asm.tokens "nop".toList = ["nop".toList] ∧ "nop".toList ∉ keywords3 ∧ "nop".toList ∉ keywords2 ∧
    Asm.tokens "add r0 1".toList = ["add".toList, "r0".toList, "1".toList] ∧ "add".toList ∈ keywords3 ∧
    Asm.tokens "jmp r0 5".toList = ["jmp".toList, "r0".toList, "5".toList] ∧ "jmp".toList ∈ keywords2 := by decide

theorem wit_EmptyTokensAreRefused : [] ∉ Asm.tokens "jmp r0 5".toList := by decide

/-- The largest and smallest numerals in range, and the first outside. -/
theorem wit_OperandTokensEncode :
    digitsValue "4294967295".toList = 0xFFFFFFFF ∧ 0xFFFFFFFF < digitsValue "4294967296".toList ∧
    digitsValue "2147483647".toList = intMax ∧ intMax < digitsValue "2147483648".toList ∧
    -digitsValue "2147483648".toList = intMin ∧ -digitsValue "2147483649".toList < intMin := by
  simp [digitsValue, Nat.ofDigitChars, intMin, intMax]

theorem wit_IsDigits : IsDigits "0012".toList := ⟨by decide, List.all_eq_true.mp rfl⟩

theorem wit_OperandTokensEncode_bad : ∀ ds, IsDigits ds →
    "r".toList ≠ 'r' :: ds ∧ "r".toList ≠ ds ∧ "r".toList ≠ '-' :: ds := by
  rintro ds ⟨hne, hd⟩
  refine ⟨fun e => hne (by simpa using e.symm), fun e => ?_, by simp⟩
  subst e
  exact absurd (hd 'r' (by simp)) (by decide)

theorem wit_FormattedTextAssemblesBack :
    ∀ op ∈ Asm.operands (.add (.reg 0xFFFFFFFF) (.lit 0x80000000) (.lit 0)), NotMalformed op := by
  simp [Asm.operands, NotMalformed]

theorem wit_CanonicalLinesRoundTrip : CanonicalLine "cmp r11 -2147483648".toList :=
  .inr ⟨"cmp".toList, by decide, "r11".toList, "-2147483648".toList, .inl ⟨11, by decide, by decide⟩,
    .inr (.inr ⟨2147483648, by decide, by decide, by decide⟩), by decide⟩

theorem wit_CanonicalLinesRoundTrip_other :
    Asm.asm "add r03 007 -0".toList = .ok 0x01010000000300000000070000000000 ∧
    decode 0x01010000000300000000070000000000 = .ok (.add (.reg 3) (.lit 7) (.lit 0)) ∧
    ∀ op ∈ Asm.operands (.add (.reg 3) (.lit 7) (.lit 0)), NotMalformed op :=
  ⟨rfl, rfl, by simp [Asm.operands, NotMalformed]⟩

theorem wit_CanonicalLinesRoundTrip_malformed :
    Asm.asm "add r0 foo 1".toList = .ok 0x010100000000FF000000000000000001 ∧
    decode 0x010100000000FF000000000000000001 = .ok (.add (.reg 0) badOp (.lit 1)) := ⟨rfl, rfl⟩

theorem wit_LastInstructionRecorded :
    ({ running 0 with lastValid := true, lastWord := addWord, trace := true } : State).lastValid = true ∧
    ({ running 0 with lastValid := true, lastWord := addWord, trace := true } : State).trace = true := ⟨rfl, rfl⟩

end Sys2Proof.Tests
end

section
/-! SUPPORT. Which words decode, what a step of a decoded word does, and the changes of a state that no instruction
can see. -/

namespace Sys2Proof

/-- Only the opcodes 1 to 9 are instructions (spec/30_encoding.md R94, R96). -/
theorem decode_ok_range {w : InstrWord} {i : Instr} (h : decode w = .ok i) :
    1 ≤ (opcOf w).toNat ∧ (opcOf w).toNat ≤ 9 := by
  unfold decode at h
  split at h
  case h_10 => cases h
  all_goals omega

/-- A word is rejected for its opcode alone (R96). -/
theorem decode_error_range {w : InstrWord} {q : Reject} (h : decode w = .error q) :
    (opcOf w).toNat = 0 ∨ 10 ≤ (opcOf w).toNat := by
  unfold decode at h
  split at h
  case h_10 => simp only [imp_false] at *; omega
  all_goals cases h

namespace Machine
open Sys2Proof.Claims

/-- All that a step of a word that decodes can do. -/
theorem step_cases_of_decode {s t : State} {w : InstrWord} {i : Instr} (hf : fetch s = some w) (hd : decode w = .ok i)
    (h : step s = .next t) :
    ∃ u, exec i s = .next u ∧
      ((u.faultCause = 0#3 ∧ t = { u with lastValid := true, lastPc := s.pc, lastWord := w, paused := s.trace }) ∨
       ∃ c, u = s.enterFault c ∧ t = s.enterFault c) := by
  obtain ⟨-, -, -, w', hf', hcase⟩ := step_cases h
  obtain rfl : w = w' := Option.some.inj (hf.symm.trans hf')
  obtain ⟨q, hq, -⟩ | ⟨j, u, hj, hu, -, hend⟩ := hcase
  · rw [hd] at hq; cases hq
  · obtain rfl : i = j := Except.ok.inj (hd.symm.trans hj)
    exact ⟨u, hu, hend.imp id fun ⟨c, _, hc, ht⟩ => ⟨c, hc, ht.trans hc⟩⟩

/-! ### How an instruction moves `pc` -/

/-- A fault entry is no completed instruction. -/
theorem enterFault_faultCause_ne_zero {s : State} {c : Cause} : (s.enterFault c).faultCause ≠ 0#3 :=
  Cause.code_ne_zero c

/-- The arithmetic family falls through. -/
theorem ArithOutcome.pc {f : Word → Word → Except Cause Word} {dst a b : Operand} {s t : State}
    (h : ArithOutcome f dst a b s t) (h0 : t.faultCause = 0#3) : t.pc = s.pc + 1 := by
  obtain ⟨d, x, y, r, -, -, -, -, rfl⟩ | ⟨c, -, rfl⟩ := h
  · rfl
  · exact absurd h0 enterFault_faultCause_ne_zero

/-- Every instruction but `jmp` falls through when it completes (spec/10_state.md R31). -/
theorem exec_pc_of_not_jump {i : Instr} {s t : State} (h : exec i s = .next t) (hj : isJump i = false)
    (h0 : t.faultCause = 0#3) : t.pc = s.pc + 1 := by
  cases i with
  | add dst a b => exact (execAdd_next h).pc h0
  | sub dst a b => exact (execSub_next h).pc h0
  | mul dst a b => exact (execMul_next h).pc h0
  | div dst a b => exact (execDiv_next h).pc h0
  | ld addr dst =>
    obtain ⟨a, d, -, -, rfl⟩ | ⟨c, -, rfl⟩ := execLd_next h
    · rfl
    · exact absurd h0 enterFault_faultCause_ne_zero
  | str src addr =>
    obtain ⟨v, n, a, -, -, -, rfl⟩ | ⟨c, -, rfl⟩ := execStr_next h
    · rfl
    · exact absurd h0 enterFault_faultCause_ne_zero
  | mov src dst =>
    obtain ⟨v, d, -, -, rfl⟩ | ⟨c, -, rfl⟩ := execMov_next h
    · rfl
    · exact absurd h0 enterFault_faultCause_ne_zero
  | cmp target literal =>
    obtain ⟨r, k, -, -, rfl⟩ | ⟨c, -, rfl⟩ := execCmp_next h
    · rfl
    · exact absurd h0 enterFault_faultCause_ne_zero
  | jmp cond target => cases hj

/-- A `jmp` that completes goes to its literal when its register holds 0 and falls through when not (R31). -/
theorem exec_pc_of_jump {cond target : Operand} {s t : State} (h : exec (.jmp cond target) s = .next t)
    (h0 : t.faultCause = 0#3) :
    ∃ v n, regVal s cond = .ok v ∧ litVal target = .ok n ∧ 0 ≤ n.toInt ∧
      t.pc = if v = 0#32 then n else s.pc + 1 := by
  obtain ⟨v, n, hv, hn, hpos, rfl⟩ | ⟨c, -, rfl⟩ := execJmp_next h
  · refine ⟨v, n, hv, hn, hpos, ?_⟩
    split <;> rfl
  · exact absurd h0 enterFault_faultCause_ne_zero

/-! ### Changes that no instruction sees -/

/-- A change of the state that touches nothing an instruction reads and commutes with everything an instruction does. -/
structure Unseen (g : State → State) : Prop where
  regs : ∀ s, (g s).regs = s.regs
  mem : ∀ s, (g s).mem = s.mem
  overflowMode : ∀ s, (g s).overflowMode = s.overflowMode
  writeReg : ∀ s i v, g (s.writeReg i v) = (g s).writeReg i v
  writeMem : ∀ s a v, g (s.writeMem a v) = (g s).writeMem a v
  setPc : ∀ s p, g (s.setPc p) = (g s).setPc p
  advance : ∀ s, g s.advance = (g s).advance
  enterFault : ∀ s c, g (s.enterFault c) = (g s).enterFault c

section Unseen
variable {g : State → State} (hg : Unseen g)
include hg

theorem Unseen.readReg (s : State) (i : Fin 12) : (g s).readReg i = s.readReg i := by
  simp only [State.readReg, hg.regs]

theorem Unseen.regVal (s : State) (op : Operand) : regVal (g s) op = regVal s op := regVal_congr (hg.regs s) op

theorem Unseen.val (s : State) (op : Operand) : val (g s) op = val s op := val_congr (hg.regs s) op

/-- The common shape of the arithmetic family answers the changed state where it answered the state. -/
theorem Unseen.settle_arithCommon {f : Word → Word → Except Cause Word} {dst a b : Operand} {s t : State}
    (h : settle s (arithCommon f dst a b s) = .next t) :
    settle (g s) (arithCommon f dst a b (g s)) = .next (g t) := by
  unfold arithCommon at h ⊢
  rw [hg.val, hg.val]
  revert h
  cases regIdx dst with
  | error c => rintro ⟨⟩; rw [hg.enterFault]; rfl
  | ok d =>
    cases Machine.val s a with
    | error c => rintro ⟨⟩; rw [hg.enterFault]; rfl
    | ok x =>
      cases Machine.val s b with
      | error c => rintro ⟨⟩; rw [hg.enterFault]; rfl
      | ok y =>
        dsimp only
        cases f x y with
        | error c => rintro ⟨⟩; rw [hg.enterFault]; rfl
        | ok r => rintro ⟨⟩; rw [hg.advance, hg.writeReg]; rfl

/-- An instruction does to the changed state what it does to the state, and the change stays. -/
theorem Unseen.exec {i : Instr} {s t : State} (h : exec i s = .next t) : exec i (g s) = .next (g t) := by
  cases i with
  | add dst a b => simpa only [Machine.exec, execAdd, hg.overflowMode] using hg.settle_arithCommon h
  | sub dst a b => simpa only [Machine.exec, execSub, hg.overflowMode] using hg.settle_arithCommon h
  | mul dst a b => simpa only [Machine.exec, execMul, hg.overflowMode] using hg.settle_arithCommon h
  | div dst a b => simpa only [Machine.exec, execDiv, hg.overflowMode] using hg.settle_arithCommon h
  | ld addr dst =>
    obtain ⟨a, d, ha, hd, rfl⟩ | ⟨c, hc | ⟨a, ha, hc⟩, rfl⟩ := execLd_next h
    · simp [Machine.exec, execLd, ha, hd, hg.mem, hg.advance, hg.writeReg]
    · simp [Machine.exec, execLd, hc, hg.enterFault]
    · simp [Machine.exec, execLd, ha, hc, hg.enterFault]
  | str src addr =>
    obtain ⟨v, n, a, hv, hn, ha, rfl⟩ | ⟨c, hc | ⟨v, hv, hc⟩ | ⟨v, n, hv, hn, hc⟩, rfl⟩ := execStr_next h
    · simp [Machine.exec, execStr, hg.regVal, hv, hn, ha, hg.advance, hg.writeMem]
    · simp [Machine.exec, execStr, hg.regVal, hc, hg.enterFault]
    · simp [Machine.exec, execStr, hg.regVal, hv, hc, hg.enterFault]
    · simp [Machine.exec, execStr, hg.regVal, hv, hn, hc, hg.enterFault]
  | mov src dst =>
    obtain ⟨v, d, hv, hd, rfl⟩ | ⟨c, hc | ⟨v, hv, hc⟩, rfl⟩ := execMov_next h
    · simp [Machine.exec, execMov, hg.regVal, hv, hd, hg.advance, hg.writeReg]
    · simp [Machine.exec, execMov, hg.regVal, hc, hg.enterFault]
    · simp [Machine.exec, execMov, hg.regVal, hv, hc, hg.enterFault]
  | cmp target literal =>
    obtain ⟨r, k, hr, hk, rfl⟩ | ⟨c, hc | ⟨r, hr, hc⟩, rfl⟩ := execCmp_next h
    · simp [Machine.exec, execCmp, hr, hk, hg.readReg, hg.advance, hg.writeReg]
    · simp [Machine.exec, execCmp, hc, hg.enterFault]
    · simp [Machine.exec, execCmp, hr, hc, hg.enterFault]
  | jmp cond target =>
    obtain ⟨v, n, hv, hn, h0, rfl⟩ | ⟨c, hc | ⟨v, hv, hc⟩ | ⟨v, n, hv, hn, hc⟩, rfl⟩ := execJmp_next h
    · simp [Machine.exec, execJmp, hg.regVal, hv, hn, jumpTarget_of_nonneg h0, apply_ite g, hg.setPc, hg.advance]
    · simp [Machine.exec, execJmp, hg.regVal, hc, hg.enterFault]
    · simp [Machine.exec, execJmp, hg.regVal, hv, hc, hg.enterFault]
    · simp [Machine.exec, execJmp, hg.regVal, hv, hn, hc, hg.enterFault]

end Unseen

/-- The state with another record of the last instruction. -/
def State.withRecord (b : Bool) (p : InstrIndex) (w : InstrWord) (s : State) : State :=
  { s with lastValid := b, lastPc := p, lastWord := w }

/-- No instruction sees what `LAST_VALID`, `LAST_PC` and `LAST_WORD` hold (spec/10_state.md R35). -/
theorem unseen_withRecord (b : Bool) (p : InstrIndex) (w : InstrWord) : Unseen (State.withRecord b p w) where
  regs _ := rfl
  mem _ := rfl
  overflowMode _ := rfl
  writeReg _ _ _ := rfl
  writeMem _ _ _ := rfl
  setPc _ _ := rfl
  advance _ := rfl
  enterFault _ _ := rfl

/-! ### What a step records -/

/-- A step is enabled exactly in RUNNING (R40). -/
theorem step_enabled_iff (s : State) :
    (∃ t, step s = .next t) ↔ s.faultCause = 0#3 ∧ s.pc.toNat < s.progLen ∧ s.paused = false := by
  rw [← runState_running_iff]
  exact ⟨fun ⟨_, h⟩ => (step_next h).1, step_total_of_running⟩

/-- A step either completes its instruction and records it, or is a fault entry from the state it began with (R35, R40). -/
theorem step_records_or_faults {s t : State} {w : InstrWord} (h : step s = .next t) (hf : fetch s = some w) :
    (t.faultCause = 0#3 ∧ t.lastValid = true ∧ t.lastPc = s.pc ∧ t.lastWord = w) ∨ ∃ c, t = s.enterFault c := by
  obtain ⟨-, -, -, w', hf', hcase⟩ := step_cases h
  obtain rfl : w = w' := Option.some.inj (hf.symm.trans hf')
  obtain ⟨q, -, rfl⟩ | ⟨i, u, -, -, -, ⟨h0, rfl⟩ | ⟨c, -, rfl, rfl⟩⟩ := hcase
  · exact .inr ⟨.illegalOpcode, rfl⟩
  · exact .inl ⟨h0, rfl, rfl, rfl⟩
  · exact .inr ⟨c, rfl⟩

end Machine
end Sys2Proof
end

section
/-! PROOFS. The statements about the step, `pc` and the record of the last instruction (spec/10_state.md R31, R35,
R40). -/

namespace Sys2Proof.Proofs
open Sys2Proof.Machine Sys2Proof.Claims

/-- Settles O34: the guards are those of RUNNING, and the rest is what a step can do, by whether the word decodes and
whether its instruction faults. -/
theorem stepFollowsItsRule : Obligations.StepFollowsItsRule := by
  intro s
  refine ⟨step_enabled_iff s, step_ne_refused s, fun w t hf h => ?_⟩
  cases hd : decode w with
  | error q =>
    have ht : t = s.enterFault .illegalOpcode := by
      rw [step_of_running (step_next h).1 hf, runWord_of_error s hd, Host.Outcome.next.injEq] at h
      exact h.symm
    exact .inl ⟨decode_error_range hd, ht⟩
  | ok i =>
    obtain ⟨hlo, hhi⟩ := decode_ok_range hd
    obtain ⟨u, hu, hdone | ⟨c, rfl, rfl⟩⟩ := step_cases_of_decode hf hd h
    · exact .inr ⟨hlo, hhi, i, u, rfl, hu, .inl hdone⟩
    · exact .inr ⟨hlo, hhi, i, _, rfl, hu, .inr ⟨enterFault_faultCause_ne_zero, rfl, rfl⟩⟩

/-- Settles O36: a fault entry keeps `pc`, and a completed step leaves the `pc` of its instruction. -/
theorem pcAdvances : Obligations.PcAdvances := by
  intro s t w i hf hd h
  obtain ⟨u, hu, ⟨h0, rfl⟩ | ⟨c, -, rfl⟩⟩ := step_cases_of_decode hf hd h
  · refine ⟨fun hne => absurd h0 hne, fun _ hj => (exec_pc_of_not_jump hu hj h0 :), ?_⟩
    rintro cond target - rfl
    obtain ⟨v, n, hv, hn, hpos, hpc⟩ := exec_pc_of_jump hu h0
    refine ⟨v, n, hv, hn, fun hz => ?_, fun hnz => ?_⟩
    · rw [if_pos hz] at hpc
      exact hpc ▸ (toNat_of_nonneg hpos).1
    · exact hpc.trans (if_neg hnz)
  · exact ⟨fun _ => rfl, fun h0 => absurd h0 enterFault_faultCause_ne_zero,
      fun _ _ h0 => absurd h0 enterFault_faultCause_ne_zero⟩

/-- Settles O38: what a step records, and that another record is a change no instruction sees. -/
theorem lastInstructionRecorded : Obligations.LastInstructionRecorded := by
  refine ⟨fun s t w h hf => ?_, fun s _ hv => ?_, fun i s t b p w h => (unseen_withRecord b p w).exec h,
    hostReset_lastValid⟩
  · obtain ⟨h0, hrec⟩ | ⟨c, rfl⟩ := step_records_or_faults h hf
    · exact ⟨fun _ => hrec, fun hne => absurd h0 hne⟩
    · exact ⟨fun h0 => absurd h0 enterFault_faultCause_ne_zero, fun _ => ⟨rfl, rfl, rfl⟩⟩
  · simp [inspect, hv]

end Sys2Proof.Proofs
end

section
/-! PROOFS. The statement about the program memory (spec/20_memory.md R75): no step and no host move between loads
writes it. -/

namespace Sys2Proof.Machine
open Sys2Proof.Claims

/-- No step writes the program or the run's other constants. -/
theorem step_keeps_runConstants {s t : State} (h : step s = .next t) :
    t.imem = s.imem ∧ t.trace = s.trace ∧ t.overflowMode = s.overflowMode := by
  obtain ⟨-, -, -, w, -, ⟨q, -, rfl⟩ | ⟨i, u, -, -, he, hend⟩⟩ := step_cases h
  · exact ⟨rfl, rfl, rfl⟩
  · obtain ⟨-, -, -, -, hu⟩ := he.rest
    obtain ⟨-, rfl⟩ | ⟨c, -, -, rfl⟩ := hend <;> exact hu

/-- The acknowledgment keeps the program. -/
@[simp] theorem ack_imem (s : State) : (ack s).imem = s.imem := by rw [ack_eq]

/-- Steps, acknowledgments and resets keep the program. -/
theorem imem_eq_of_reaches {s t : State} (h : Reaches s t) : t.imem = s.imem := by
  induction h with
  | refl => rfl
  | step _ hst ih => exact (step_keeps_runConstants hst).1.trans ih
  | ack _ ih => exact (ack_imem _).trans ih
  | reset _ ih => exact (hostReset_imem _).trans ih

/-- The word fetched depends on the program and `pc` alone. -/
theorem fetch_congr {s t : State} (hm : t.imem = s.imem) (hp : t.pc = s.pc) : fetch t = fetch s := by
  simp only [fetch, hm, hp]

end Sys2Proof.Machine

namespace Sys2Proof.Proofs
open Sys2Proof.Machine Sys2Proof.Claims

/-- Settles O41: the program is kept along the whole sequence, and a fetch reads the program at `pc` and nothing
else. -/
theorem programIsImmutable : Obligations.ProgramIsImmutable :=
  fun _ _ h => ⟨imem_eq_of_reaches h, fetch_congr (imem_eq_of_reaches h)⟩

end Sys2Proof.Proofs
end

section
/-! SUPPORT. The encoder and the decoder on whole instructions: what an encoded word holds, what is read back from it,
and what of a word the decoder looks at (spec/30_encoding.md R91 to R97). -/

namespace Sys2Proof
open Sys2Proof.Asm

/-- An instruction is well-formed when its operands are. -/
theorem Instr.wf_iff (i : Instr) : i.wf = true ↔ ∀ op ∈ operands i, op.wf = true := by
  cases i <;> simp [Instr.wf, operands, and_assoc]

/-- Every encoded word carries its instruction's opcode number, one of the nine. -/
theorem opcodeField (i : Instr) : Laws.OpcodeField.Statement i := by
  cases i with
  | add dst a b => exact Laws.OpcodeField.add dst a b
  | sub dst a b => exact Laws.OpcodeField.sub dst a b
  | mul dst a b => exact Laws.OpcodeField.mul dst a b
  | div dst a b => exact Laws.OpcodeField.div dst a b
  | ld addr dst => exact Laws.OpcodeField.ld addr dst
  | str src addr => exact Laws.OpcodeField.str src addr
  | mov src dst => exact Laws.OpcodeField.mov src dst
  | cmp target literal => exact Laws.OpcodeField.cmp target literal
  | jmp cond target => exact Laws.OpcodeField.jmp cond target

/-- The opcode number of an encoded word. -/
@[simp] theorem opcOf_encode (i : Instr) : opcOf (encode i) = i.opcode := (opcodeField i).1

/-- The encoder fills the third field of a two-operand word with the literal 0 (R95). -/
theorem op3Of_encode {i : Instr} (h : 5 ≤ i.opcode.toNat) : op3Of (encode i) = fillerField := by
  cases i with
  | add dst a b => exact absurd h (by simp [Instr.opcode])
  | sub dst a b => exact absurd h (by simp [Instr.opcode])
  | mul dst a b => exact absurd h (by simp [Instr.opcode])
  | div dst a b => exact absurd h (by simp [Instr.opcode])
  | ld addr dst => exact op3Of_packWord ..
  | str src addr => exact op3Of_packWord ..
  | mov src dst => exact op3Of_packWord ..
  | cmp target literal => exact op3Of_packWord ..
  | jmp cond target => exact op3Of_packWord ..

/-- A well-formed instruction is read back from its word. -/
theorem decode_encode {i : Instr} (h : i.wf = true) : decode (encode i) = .ok i := by
  rw [Instr.wf_iff] at h
  have hop : ∀ op ∈ operands i, decodeOperand (encodeOperand op) = op :=
    fun op hm => decodeOperand_encodeOperand (h op hm)
  unfold decode
  rw [opcOf_encode]
  cases i
  all_goals
    simp only [operands, List.forall_mem_cons] at hop
    simp [Instr.opcode, encode, hop]

/-- A word whose opcode is none of the nine is rejected (R96). -/
theorem decode_error_of_range {w : InstrWord} (h : (opcOf w).toNat = 0 ∨ 10 ≤ (opcOf w).toNat) :
    ∃ q, decode w = .error q := by
  cases hd : decode w with
  | error q => exact ⟨q, rfl⟩
  | ok i =>
    obtain ⟨hlo, hhi⟩ := decode_ok_range hd
    omega

section HighBits
variable {w w' : InstrWord} (h : w.extractLsb' 40 88 = w'.extractLsb' 40 88)
include h

/-- Fields that lie in the bits 127 to 40 are those of every word that agrees there. -/
theorem extractLsb'_congr_high {start len : Nat} (h0 : 40 ≤ start) (h1 : start + len ≤ 128) :
    w.extractLsb' start len = w'.extractLsb' start len := by
  refine BitVec.eq_of_getLsbD_eq fun k hk => ?_
  have hbit := congrArg (fun v : BitVec 88 => v.getLsbD (start - 40 + k)) h
  have hin : start - 40 + k < 88 := by omega
  have hat : 40 + (start - 40 + k) = start + k := by omega
  simpa [hin, hat, hk] using hbit

/-- The opcode field lies above OP3. -/
theorem opcOf_congr_high : opcOf w = opcOf w' := extractLsb'_congr_high h (by omega) (by omega)

/-- A two-operand word is decoded without its third field (R95). -/
theorem decode_congr_high (h5 : 5 ≤ (opcOf w).toNat) : decode w = decode w' := by
  have hopc : opcOf w = opcOf w' := opcOf_congr_high h
  have hop1 : op1Of w = op1Of w' := extractLsb'_congr_high h (by omega) (by omega)
  have hop2 : op2Of w = op2Of w' := extractLsb'_congr_high h (by omega) (by omega)
  unfold decode
  rw [← hopc, hop1, hop2]
  split
  case h_1 | h_2 | h_3 | h_4 => omega
  all_goals rfl

end HighBits

namespace Machine

/-- The end of a step keeps nothing of the fetched word but the record of it. -/
theorem retire_word_congr (w w' : InstrWord) (s u : State) :
    retire w' s u = { retire w s u with lastWord := (retire w' s u).lastWord } := by
  by_cases h : u.faultCause = 0#3
  · rw [retire_of_ok h, retire_of_ok h]
  · rw [retire_of_fault h, retire_of_fault h]

/-- Words that decode alike run alike, the record of the word apart. -/
theorem runWord_word_congr {w w' : InstrWord} {s t : State} (hd : decode w = decode w') (h : runWord w s = .next t) :
    ∃ t', runWord w' s = .next t' ∧ t' = { t with lastWord := t'.lastWord } := by
  obtain ⟨q, hq, rfl⟩ | ⟨i, u, hi, hu, rfl⟩ := runWord_next h
  · exact ⟨_, runWord_of_error s (hd.symm.trans hq), rfl⟩
  · exact ⟨_, runWord_of_ok (hd.symm.trans hi) hu, retire_word_congr w w' s u⟩

end Machine
end Sys2Proof
end

section
/-! SUPPORT. Which lines assemble and to what, which texts are canonical, and which programs load
(spec/30_encoding.md R111 to R119). -/

namespace Sys2Proof.Asm
open Sys2Proof.Machine Sys2Proof.Claims

/-! ### Keyword and arity -/

/-- What three operand tokens give. -/
theorem threeOperands_eq_ok {mk : Operand → Operand → Operand → Instr} {ops : List Line} {i : Instr} :
    threeOperands mk ops = .ok i ↔
      ∃ a b c, ops = [a, b, c] ∧ i = mk (operandOf a) (operandOf b) (operandOf c) := by
  unfold threeOperands
  split
  case h_1 a b c => simp [eq_comm]
  case h_2 hne => simpa using fun a b c e => absurd e (hne a b c)

/-- What two operand tokens give. -/
theorem twoOperands_eq_ok {mk : Operand → Operand → Instr} {ops : List Line} {i : Instr} :
    twoOperands mk ops = .ok i ↔ ∃ a b, ops = [a, b] ∧ i = mk (operandOf a) (operandOf b) := by
  unfold twoOperands
  split
  case h_1 a b => simp [eq_comm]
  case h_2 hne => simpa using fun a b e => absurd e (hne a b)

/-- What tokens give an instruction: its keyword, and tokens that are read as its operands (R112 to R114). -/
theorem ofTokens_eq_ok {kw : Line} {ops : List Line} {i : Instr} :
    ofTokens (kw :: ops) = .ok i ↔ keyword i = kw ∧ operands i = ops.map operandOf := by
  constructor
  · intro h
    unfold ofTokens at h
    split at h
    case h_10 => cases h
    case h_1 | h_2 | h_3 | h_4 =>
      rename_i heq
      obtain ⟨rfl, rfl⟩ := List.cons.inj heq
      obtain ⟨a, b, c, rfl, rfl⟩ := threeOperands_eq_ok.mp h
      exact ⟨rfl, rfl⟩
    all_goals
      rename_i heq
      obtain ⟨rfl, rfl⟩ := List.cons.inj heq
      obtain ⟨a, b, rfl, rfl⟩ := twoOperands_eq_ok.mp h
      exact ⟨rfl, rfl⟩
  · rintro ⟨rfl, hops⟩
    have hops := hops.symm
    cases i
    case add | sub | mul | div =>
      simp only [operands, List.map_eq_cons_iff, List.map_eq_nil_iff] at hops
      obtain ⟨a, -, rfl, rfl, b, -, rfl, rfl, c, -, rfl, rfl, rfl⟩ := hops
      rfl
    all_goals
      simp only [operands, List.map_eq_cons_iff, List.map_eq_nil_iff] at hops
      obtain ⟨a, -, rfl, rfl, b, -, rfl, rfl, rfl⟩ := hops
      rfl

/-- The arity of every keyword (R93, R94). -/
theorem keyword_arity (i : Instr) :
    (keyword i ∈ keywords3 ∧ ∃ a b c, operands i = [a, b, c]) ∨ (keyword i ∈ keywords2 ∧ ∃ a b, operands i = [a, b]) := by
  cases i
  case add | sub | mul | div => exact .inl ⟨by simp [keyword, keywords3], _, _, _, rfl⟩
  all_goals exact .inr ⟨by simp [keyword, keywords2], _, _, rfl⟩

/-- Every three-operand keyword has its instruction over any operands. -/
theorem exists_instr_of_keywords3 {kw : Line} (h : kw ∈ keywords3) (a b c : Operand) :
    ∃ i, keyword i = kw ∧ operands i = [a, b, c] := by
  simp only [keywords3, List.mem_cons, List.not_mem_nil, or_false] at h
  obtain rfl | rfl | rfl | rfl := h
  · exact ⟨.add a b c, rfl, rfl⟩
  · exact ⟨.sub a b c, rfl, rfl⟩
  · exact ⟨.mul a b c, rfl, rfl⟩
  · exact ⟨.div a b c, rfl, rfl⟩

/-- Every two-operand keyword has its instruction over any operands. -/
theorem exists_instr_of_keywords2 {kw : Line} (h : kw ∈ keywords2) (a b : Operand) :
    ∃ i, keyword i = kw ∧ operands i = [a, b] := by
  simp only [keywords2, List.mem_cons, List.not_mem_nil, or_false] at h
  obtain rfl | rfl | rfl | rfl | rfl := h
  · exact ⟨.ld a b, rfl, rfl⟩
  · exact ⟨.str a b, rfl, rfl⟩
  · exact ⟨.mov a b, rfl, rfl⟩
  · exact ⟨.cmp a b, rfl, rfl⟩
  · exact ⟨.jmp a b, rfl, rfl⟩

/-- No keyword has two arities. -/
theorem keywords_disjoint : ∀ kw ∈ keywords3, kw ∉ keywords2 := by decide

/-- What assembles, for a line whose tokens are known. -/
theorem asm_eq_ok_of_tokens {line kw : Line} {ops : List Line} (h : tokens line = kw :: ops) {w : InstrWord} :
    asm line = .ok w ↔ ∃ i, keyword i = kw ∧ operands i = ops.map operandOf ∧ encode i = w := by
  simp only [asm_eq_ok, h, ofTokens_eq_ok, and_assoc]

/-- A keyword and a count of operand tokens that no instruction has together end in an error (R112, R113). -/
theorem asm_error_of_tokens {line kw : Line} {ops : List Line} (h : tokens line = kw :: ops)
    (hno : ∀ i, keyword i = kw → (operands i).length ≠ ops.length) : ∃ e, asm line = .error e := by
  cases ha : asm line with
  | error e => exact ⟨e, rfl⟩
  | ok w =>
    obtain ⟨i, hkw, hops, -⟩ := (asm_eq_ok_of_tokens h).mp ha
    exact absurd (by rw [hops, List.length_map]) (hno i hkw)

/-- A word that a line assembles to is the encoding of an instruction over operands read from tokens. -/
theorem asm_ok_encode {line : Line} {w : InstrWord} (h : asm line = .ok w) :
    ∃ i, encode i = w ∧ ∀ op ∈ operands i, ∃ t, operandOf t = op := by
  obtain ⟨kw, ops, htok⟩ := List.exists_cons_of_ne_nil (tokens_ne_nil line)
  obtain ⟨i, -, hops, hw⟩ := (asm_eq_ok_of_tokens htok).mp h
  refine ⟨i, hw, fun op hop => ?_⟩
  rw [hops] at hop
  obtain ⟨t, -, ht⟩ := List.mem_map.mp hop
  exact ⟨t, ht⟩

/-- An instruction over operands read from tokens is read back from its word. -/
theorem decode_encode_of_tokens {i : Instr} (h : ∀ op ∈ operands i, ∃ t, operandOf t = op) :
    decode (encode i) = .ok i := by
  refine decode_encode ((Instr.wf_iff i).mpr fun op hop => ?_)
  obtain ⟨t, rfl⟩ := h op hop
  exact operandOf_wf t

/-! ### Operand tokens -/

/-- The value of a digit string. -/
theorem decimal?_of_isDigits {ds : Line} (h : IsDigits ds) : decimal? ds = some (Nat.ofDigitChars 10 ds 0) :=
  decimal?_eq_some.mpr ⟨h.1, h.2, rfl⟩

/-- Any other text has no value. -/
theorem decimal?_of_not_isDigits {ds : Line} (h : ¬ IsDigits ds) : decimal? ds = none := decimal?_eq_none.mpr h

/-- A literal in range, and its value. -/
theorem literalOf_toInt {z : Int} (h0 : intMin ≤ z) (h1 : z ≤ intMax) : ∃ v : Word, literalOf z = .lit v ∧ v.toInt = z :=
  ⟨wrap32 z, literalOf_of_fits h0 h1, toInt_wrap32 ((fits32_iff z).mpr ⟨h0, h1⟩)⟩

section Digits
variable {ds : Line} (h : IsDigits ds)
include h

/-- `r` and digits. -/
theorem operandOf_register : operandOf ('r' :: ds) = .reg (BitVec.ofNat 32 (min (Nat.ofDigitChars 10 ds 0) 0xFFFFFFFF)) := by
  simp only [operandOf, registerToken, decimal?_of_isDigits h]

/-- `-` and digits. -/
theorem operandOf_negative : operandOf ('-' :: ds) = literalOf (-digitsValue ds) := by
  simp only [operandOf, negativeToken, decimal?_of_isDigits h, digitsValue]

/-- Digits. -/
theorem operandOf_numeral : operandOf ds = literalOf (digitsValue ds) := by
  rw [operandOf_digits h.2]
  simp only [plainToken, decimal?_of_isDigits h, digitsValue]

end Digits

/-- A token of none of the three forms is malformed (R114). -/
theorem operandOf_other {tok : Line} (h : ∀ ds, IsDigits ds → tok ≠ 'r' :: ds ∧ tok ≠ ds ∧ tok ≠ '-' :: ds) :
    operandOf tok = malformed := by
  unfold operandOf
  split
  · rename_i ds
    rw [registerToken, decimal?_of_not_isDigits fun hd => (h ds hd).1 rfl]
  · rename_i ds
    rw [negativeToken, decimal?_of_not_isDigits fun hd => (h ds hd).2.2 rfl]
  · rw [plainToken, decimal?_of_not_isDigits fun hd => (h tok hd).2.1 rfl]

/-- The one malformed operand a literal out of range gives is `malformed`. -/
theorem literalOf_eq_malformed_of_bad {z : Int} {k : BitVec 8} {p : BitVec 32} (h : literalOf z = .bad k p) :
    literalOf z = malformed := by
  by_cases hz : intMin ≤ z ∧ z ≤ intMax
  · rw [literalOf_of_fits hz.1 hz.2] at h
    cases h
  · exact if_neg hz

/-- The one malformed operand a token can be read as is `malformed`. -/
theorem operandOf_eq_malformed_of_bad {t : Line} {k : BitVec 8} {p : BitVec 32} (h : operandOf t = .bad k p) :
    operandOf t = malformed := by
  by_cases hform : ∃ ds, IsDigits ds ∧ (t = 'r' :: ds ∨ t = ds ∨ t = '-' :: ds)
  · obtain ⟨ds, hd, rfl | rfl | rfl⟩ := hform
    · rw [operandOf_register hd] at h
      cases h
    · rw [operandOf_numeral hd] at h ⊢
      exact literalOf_eq_malformed_of_bad h
    · rw [operandOf_negative hd] at h ⊢
      exact literalOf_eq_malformed_of_bad h
  · exact operandOf_other fun ds hd =>
      ⟨fun e => hform ⟨ds, hd, .inl e⟩, fun e => hform ⟨ds, hd, .inr (.inl e)⟩, fun e => hform ⟨ds, hd, .inr (.inr e)⟩⟩

/-- An operand read from a token is read back from its printed text: `?`, the text of a malformed one, is itself a
malformed token (R119). -/
theorem operandOf_operandText_operandOf (t : Line) : operandOf (operandText (operandOf t)) = operandOf t := by
  cases hop : operandOf t with
  | lit v => exact operandOf_operandText (by simp)
  | reg n => exact operandOf_operandText (by simp)
  | bad k p =>
    rw [operandOf_eq_malformed_of_bad hop] at hop
    rw [← hop]
    decide

/-! ### Printed texts -/

/-- The tokens of a keyword and printed operands. -/
theorem tokens_append_operandsText {kw : Line} (h : ' ' ∉ kw) (ops : List Operand) :
    tokens (kw ++ operandsText ops) = kw :: ops.map operandText := by
  induction ops generalizing kw with
  | nil => simpa [operandsText] using tokens_of_no_space h
  | cons op ops ih =>
    rw [operandsText, tokens_cons_space h, ih (space_notMem_operandText op), List.map_cons]

/-- No keyword holds a space. -/
theorem space_notMem_keyword (i : Instr) : ' ' ∉ keyword i := by cases i <;> simp [keyword]

/-- No keyword is the empty text. -/
theorem keyword_ne_nil (i : Instr) : keyword i ≠ [] := by cases i <;> simp [keyword]

/-- The tokens of an instruction's text. -/
theorem tokens_formatInstr (i : Instr) : tokens (formatInstr i) = keyword i :: (operands i).map operandText :=
  tokens_append_operandsText (space_notMem_keyword i) (operands i)

section Format
variable {i : Instr} (h : ∀ op ∈ operands i, operandOf (operandText op) = op)
include h

/-- An instruction whose operands are read back from their texts is assembled back from its text. -/
theorem asm_formatInstr : asm (formatInstr i) = .ok (encode i) := by
  refine (asm_eq_ok_of_tokens (tokens_formatInstr i)).mpr ⟨i, rfl, ?_, rfl⟩
  rw [List.map_map]
  exact ((List.map_congr_left h).trans (List.map_id _)).symm

/-- The same for the load: no token of a printed text is empty. -/
theorem loadLine_formatInstr : loadLine (formatInstr i) = .ok (encode i) := by
  refine loadLine_eq_ok.mpr ⟨asm_formatInstr h, ?_⟩
  rw [tokens_formatInstr, List.mem_cons, List.mem_map]
  rintro (hkw | ⟨op, -, hop⟩)
  · exact keyword_ne_nil i hkw.symm
  · exact operandText_ne_nil op hop

end Format

/-- The text of a word that decodes. -/
theorem format_of_decode {w : InstrWord} {i : Instr} (h : decode w = .ok i) : format w = some (formatInstr i) := by
  simp only [format, h]

/-! ### Canonical texts -/

/-- The decimal text of a natural number. -/
theorem intText_natCast (n : Nat) : intText n = Nat.toDigits 10 n := by
  have h : ¬ (n : Int) < 0 := by omega
  simp only [intText, if_neg h, Int.natAbs_natCast, natText]

/-- The decimal text of a negative integer. -/
theorem intText_neg {n : Nat} (h : 0 < n) : intText (-n) = '-' :: Nat.toDigits 10 n := by
  have h' : -(n : Int) < 0 := by omega
  simp only [intText, if_pos h', Int.natAbs_neg, Int.natAbs_natCast, natText]

/-- The text of a literal in range is that of its value. -/
theorem operandText_wrap32 {z : Int} (h0 : intMin ≤ z) (h1 : z ≤ intMax) : operandText (.lit (wrap32 z)) = intText z := by
  rw [operandText, toInt_wrap32 ((fits32_iff z).mpr ⟨h0, h1⟩)]

/-- The canonical tokens are the texts of the operands that are not malformed (R118, R119). -/
theorem canonicalToken_iff {tok : Line} : CanonicalToken tok ↔ ∃ op, NotMalformed op ∧ operandText op = tok := by
  constructor
  · rintro (⟨n, hn, rfl⟩ | ⟨n, hn, rfl⟩ | ⟨n, h0, hn, rfl⟩)
    · exact ⟨.reg (BitVec.ofNatLT n hn), by simp [NotMalformed], by simp [operandText, natText]⟩
    · refine ⟨.lit (wrap32 n), by simp [NotMalformed], ?_⟩
      rw [operandText_wrap32 (by simp only [intMin]; omega) (by simp only [intMax]; omega), intText_natCast]
    · refine ⟨.lit (wrap32 (-n)), by simp [NotMalformed], ?_⟩
      rw [operandText_wrap32 (by simp only [intMin]; omega) (by simp only [intMax]; omega), intText_neg h0]
  · rintro ⟨op, hop, rfl⟩
    cases op with
    | reg n => exact .inl ⟨n.toNat, n.isLt, rfl⟩
    | bad k p => exact absurd rfl (hop k p)
    | lit v =>
      have hr := toInt_range v
      simp only [intMin, intMax] at hr
      rw [operandText]
      obtain ⟨n, hz | hz⟩ := Int.eq_nat_or_neg v.toInt
      · rw [hz, intText_natCast]
        exact .inr (.inl ⟨n, by omega, rfl⟩)
      · obtain rfl | h0 := Nat.eq_zero_or_pos n
        · rw [hz]
          exact .inr (.inl ⟨0, by omega, rfl⟩)
        · rw [hz, intText_neg h0]
          exact .inr (.inr ⟨n, h0, by omega, rfl⟩)

/-- The canonical lines are the texts of the instructions without malformed operands (R118, R119). -/
theorem canonicalLine_iff {line : Line} :
    CanonicalLine line ↔ ∃ i, (∀ op ∈ operands i, NotMalformed op) ∧ formatInstr i = line := by
  constructor
  · rintro (⟨kw, hkw, a, b, c, ha, hb, hc, rfl⟩ | ⟨kw, hkw, a, b, ha, hb, rfl⟩)
    · obtain ⟨oa, hnoa, rfl⟩ := canonicalToken_iff.mp ha
      obtain ⟨ob, hnob, rfl⟩ := canonicalToken_iff.mp hb
      obtain ⟨oc, hnoc, rfl⟩ := canonicalToken_iff.mp hc
      obtain ⟨i, rfl, hi⟩ := exists_instr_of_keywords3 hkw oa ob oc
      exact ⟨i, by simp [hi, hnoa, hnob, hnoc], by simp [formatInstr, hi, operandsText]⟩
    · obtain ⟨oa, hnoa, rfl⟩ := canonicalToken_iff.mp ha
      obtain ⟨ob, hnob, rfl⟩ := canonicalToken_iff.mp hb
      obtain ⟨i, rfl, hi⟩ := exists_instr_of_keywords2 hkw oa ob
      exact ⟨i, by simp [hi, hnoa, hnob], by simp [formatInstr, hi, operandsText]⟩
  · rintro ⟨i, hops, rfl⟩
    have hcan : ∀ op ∈ operands i, CanonicalToken (operandText op) :=
      fun op hop => canonicalToken_iff.mpr ⟨op, hops op hop, rfl⟩
    obtain ⟨hkw, a, b, c, hi⟩ | ⟨hkw, a, b, hi⟩ := keyword_arity i
    · exact .inl ⟨keyword i, hkw, operandText a, operandText b, operandText c, hcan a (by simp [hi]),
        hcan b (by simp [hi]), hcan c (by simp [hi]), by simp [formatInstr, hi, operandsText]⟩
    · exact .inr ⟨keyword i, hkw, operandText a, operandText b, hcan a (by simp [hi]), hcan b (by simp [hi]),
        by simp [formatInstr, hi, operandsText]⟩

/-! ### Programs -/

/-- What a program of lines loads: word by word what its lines load. -/
theorem asmAll_eq_ok {lines : List Line} {ws : List InstrWord} :
    asmAll lines = .ok ws ↔ ws.map .ok = lines.map loadLine := by
  induction lines generalizing ws with
  | nil => simp [asmAll, eq_comm]
  | cons l ls ih =>
    rw [asmAll, List.map_cons, List.map_eq_cons_iff]
    cases loadLine l with
    | error e => simp
    | ok w =>
      cases hr : asmAll ls with
      | error e => simp [← ih, hr]
      | ok us => simp [← ih, hr, eq_comm]

/-- One line that does not parse refuses the whole program (R116). -/
theorem asmAll_of_parse_error {lines : List Line} {l : Line} {e : ParseError} (hl : l ∈ lines)
    (h : parse l = .error e) : ∃ e', asmAll lines = .error e' := by
  cases ha : asmAll lines with
  | error e' => exact ⟨e', rfl⟩
  | ok ws =>
    have hm := List.mem_map_of_mem (f := loadLine) hl
    rw [← asmAll_eq_ok.mp ha, loadLine_of_error h] at hm
    simp at hm

/-- A program whose lines all parse has its words. -/
theorem asmAll_of_parse {lines : List Line} (h : ∀ l ∈ lines, ∃ i, parse l = .ok i) : ∃ ws, asmAll lines = .ok ws := by
  induction lines with
  | nil => exact ⟨[], rfl⟩
  | cons l ls ih =>
    obtain ⟨i, hi⟩ := h l (by simp)
    obtain ⟨ws, hws⟩ := ih fun l' hl' => h l' (by simp [hl'])
    exact ⟨encode i :: ws, by simp only [asmAll, loadLine_of_parse hi, hws]⟩

section Loaded
variable {lines : List Line} {ws : List InstrWord} (h : asmAll lines = .ok ws)
include h

/-- A loaded program has a word for each of its lines. -/
theorem length_of_asmAll : ws.length = lines.length := by
  simpa using congrArg List.length (asmAll_eq_ok.mp h)

/-- Word `k` of a loaded program is that of line `k`. -/
theorem asmAll_getElem? {k : Nat} {l : Line} (hk : lines[k]? = some l) :
    ∃ i, parse l = .ok i ∧ asm l = .ok (encode i) ∧ ws[k]? = some (encode i) := by
  have hword := congrArg (fun r => r[k]?) (asmAll_eq_ok.mp h)
  simp only [List.getElem?_map, hk, Option.map_some, Option.map_eq_some_iff] at hword
  obtain ⟨w, hw, hl⟩ := hword
  obtain ⟨ha, hne⟩ := loadLine_eq_ok.mp hl.symm
  obtain ⟨i, hi, rfl⟩ := asm_eq_ok.mp ha
  exact ⟨i, parse_eq_ok.mpr ⟨hi, hne⟩, ha, hw⟩

/-- Every word of a loaded program is an instruction. -/
theorem decode_of_mem_asmAll {w : InstrWord} (hw : w ∈ ws) : ∃ i, decode w = .ok i := by
  have hm := List.mem_map_of_mem (f := Except.ok (ε := ParseError)) hw
  rw [asmAll_eq_ok.mp h] at hm
  obtain ⟨l, -, hl⟩ := List.mem_map.mp hm
  obtain ⟨i, rfl, htok⟩ := asm_ok_encode (loadLine_eq_ok.mp hl).1
  exact ⟨i, decode_encode_of_tokens htok⟩

end Loaded

end Sys2Proof.Asm

namespace Sys2Proof.Machine

/-- What a boot makes: the words of a program that fits, loaded (spec/70_reset_and_hazards.md R245). -/
theorem boot_eq_ok {lines : List Asm.Line} {trace : Bool} {s t : State} :
    boot lines trace s = .ok t ↔
      ∃ ws, Asm.asmAll lines = .ok ws ∧ ws.length ≤ Config.imemDepth ∧ t = loadWords ws trace s := by
  unfold boot
  cases Asm.asmAll lines with
  | error e => simp
  | ok ws => by_cases hfit : ws.length ≤ Config.imemDepth <;> simp [hfit, eq_comm]

end Sys2Proof.Machine
end

section
/-! PROOFS. The statements of spec/30_encoding.md: the encoding on a running machine (R95, R96), the assembler and its
operand tokens (R112 to R115), the load (R116), and the canonical texts (R119). -/

namespace Sys2Proof.Proofs
open Sys2Proof.Machine Sys2Proof.Claims

/-- Settles O58: canonical lines are the texts of the instructions without malformed operands, and what a token is read
as is read back from its text, malformed or not. -/
theorem canonicalLinesRoundTrip : Obligations.CanonicalLinesRoundTrip := by
  refine ⟨fun line hline => ?_, fun line w i ha hd => ?_, fun _ _ => rfl⟩
  · obtain ⟨i, hno, rfl⟩ := Asm.canonicalLine_iff.mp hline
    have hback : ∀ op ∈ Asm.operands i, Asm.operandOf (Asm.operandText op) = op :=
      fun op hop => Asm.operandOf_operandText (hno op hop)
    have hd : decode (encode i) = .ok i := Asm.decode_encode_of_tokens fun op hop => ⟨_, hback op hop⟩
    exact ⟨encode i, Asm.asm_formatInstr hback, Asm.loadLine_formatInstr hback, Asm.format_of_decode hd⟩
  · obtain ⟨j, rfl, htok⟩ := Asm.asm_ok_encode ha
    obtain rfl : j = i := Except.ok.inj ((Asm.decode_encode_of_tokens htok).symm.trans hd)
    have hback : ∀ op ∈ Asm.operands j, Asm.operandOf (Asm.operandText op) = op := by
      intro op hop
      obtain ⟨t, rfl⟩ := htok op hop
      exact Asm.operandOf_operandText_operandOf t
    exact ⟨Asm.formatInstr j, Asm.format_of_decode hd, Asm.asm_formatInstr hback,
      fun hno => Asm.canonicalLine_iff.mpr ⟨j, hno, rfl⟩⟩

/-- Settles O2: an illegal word is rejected by its opcode, no instruction raises the cause of that, and an assembled
word carries its instruction's opcode. -/
theorem illegalOpcodesFault : Obligations.IllegalOpcodesFault := by
  refine ⟨fun s w hr hf hrange => ?_, fun s t w hf hlo hhi h => ?_, fun line w ha => ?_⟩
  · obtain ⟨q, hq⟩ := decode_error_of_range hrange
    exact (step_of_running hr hf).trans (runWord_of_error s hq)
  · obtain ⟨h0, -, -, w', hf', hcase⟩ := step_cases h
    obtain rfl : w = w' := Option.some.inj (hf.symm.trans hf')
    obtain ⟨q, hq, -⟩ | ⟨i, u, -, -, -, ⟨hu, rfl⟩ | ⟨c, hc, rfl, rfl⟩⟩ := hcase
    · have := decode_error_range hq
      omega
    · exact fun h1 => absurd (hu.symm.trans h1) (by decide)
    · exact fun h1 => hc (Cause.code_injective h1)
  · obtain ⟨i, rfl, -⟩ := Asm.asm_ok_encode ha
    rw [opcOf_encode]
    exact (opcodeField i).2

/-- Settles O5: the decoder of these opcodes reads bits 127 to 40 only, and the encoder fills the third field. -/
theorem thirdFieldIgnored : Obligations.ThirdFieldIgnored := by
  refine ⟨fun w w' h5 _ hhigh => ?_, fun line w ha h5 => ?_⟩
  · have hd : decode w = decode w' := decode_congr_high hhigh h5
    exact ⟨hd, fun s t h => runWord_word_congr hd h⟩
  · obtain ⟨i, rfl, -⟩ := Asm.asm_ok_encode ha
    rw [opcOf_encode] at h5
    exact op3Of_encode h5

/-- Settles O54: a line assembles exactly when some instruction has its keyword and operands read from its tokens, and
every keyword has one arity. -/
theorem assemblerFollowsItsRule : Obligations.AssemblerFollowsItsRule := by
  intro line kw ops htok
  refine ⟨fun h3 h2 => ?_, fun h3 hlen => ?_, fun h2 hlen => ?_, fun hok => ?_⟩
  · refine Asm.asm_error_of_tokens htok fun i hi => ?_
    subst hi
    obtain ⟨hkw, -⟩ | ⟨hkw, -⟩ := Asm.keyword_arity i
    · exact absurd hkw h3
    · exact absurd hkw h2
  · refine Asm.asm_error_of_tokens htok fun i hi => ?_
    subst hi
    obtain ⟨-, a, b, c, hops⟩ | ⟨hkw, -⟩ := Asm.keyword_arity i
    · simpa [hops] using hlen.symm
    · exact absurd hkw (Asm.keywords_disjoint _ h3)
  · refine Asm.asm_error_of_tokens htok fun i hi => ?_
    subst hi
    obtain ⟨hkw, -⟩ | ⟨-, a, b, hops⟩ := Asm.keyword_arity i
    · exact absurd h2 (Asm.keywords_disjoint _ hkw)
    · simpa [hops] using hlen.symm
  · have hinstr : ∃ i, Asm.keyword i = kw ∧ Asm.operands i = ops.map Asm.operandOf := by
      obtain ⟨hkw, hlen⟩ | ⟨hkw, hlen⟩ := hok
      · obtain ⟨a, b, c, rfl⟩ := List.length_eq_three.mp hlen
        exact Asm.exists_instr_of_keywords3 hkw _ _ _
      · obtain ⟨a, b, rfl⟩ := List.length_eq_two.mp hlen
        exact Asm.exists_instr_of_keywords2 hkw _ _
    obtain ⟨i, hkw, hops⟩ := hinstr
    exact ⟨i, (Asm.asm_eq_ok_of_tokens htok).mpr ⟨i, hkw, hops, rfl⟩, hkw, hops⟩

/-- Settles O56: the three numeral forms, every other token, and the line whose malformed operand is met only when it
is executed. -/
theorem operandTokensEncode : Obligations.OperandTokensEncode := by
  refine ⟨fun ds hds => ⟨fun hle => ?_, fun hgt => ?_, fun hle => ?_, fun hgt => ?_, fun hle => ?_, fun hgt => ?_⟩,
    fun tok h => Asm.operandOf_other h,
    _, .add (.reg 0) Asm.malformed (.lit 1), rfl, rfl, fun s => ?_⟩
  · unfold digitsValue at hle ⊢
    refine ⟨_, Asm.operandOf_register hds, ?_⟩
    rw [BitVec.toNat_ofNat, Nat.min_eq_left (by omega), Nat.mod_eq_of_lt (by omega)]
  · unfold digitsValue at hgt
    rw [Asm.operandOf_register hds, Nat.min_eq_right (by omega)]
    rfl
  · rw [Asm.operandOf_numeral hds]
    exact Asm.literalOf_toInt (by simp only [digitsValue, intMin]; omega) hle
  · rw [Asm.operandOf_numeral hds]
    exact Asm.literalOf_of_out (.inr hgt)
  · rw [Asm.operandOf_negative hds]
    exact Asm.literalOf_toInt hle (by simp only [digitsValue, intMax]; omega)
  · rw [Asm.operandOf_negative hds]
    exact Asm.literalOf_of_out (.inl hgt)
  · have hdst : regIdx (.reg 0) = .ok 0 := rfl
    have hbad : val s Asm.malformed = .error .operandFormatError := val_bad s _ _
    rw [exec, execAdd, arithCommon_of_error2 hdst hbad]
    rfl

/-- Settles O49: the words of a load are those its lines load, line by line, and each of them is an encoded
instruction. -/
theorem loadIsAllOrNothing : Obligations.LoadIsAllOrNothing := by
  intro s lines trace
  refine ⟨?_, fun hparse hfit => ?_, fun t ht => ?_⟩
  · rintro ⟨l, hl, e, he⟩
    obtain ⟨e', he'⟩ := Asm.asmAll_of_parse_error hl he
    exact ⟨e', by simp only [boot, he']⟩
  · obtain ⟨ws, hws⟩ := Asm.asmAll_of_parse hparse
    exact ⟨_, boot_eq_ok.mpr ⟨ws, hws, (Asm.length_of_asmAll hws).trans_le hfit, rfl⟩⟩
  · obtain ⟨ws, hws, hfit, rfl⟩ := boot_eq_ok.mp ht
    refine ⟨rfl, Asm.length_of_asmAll hws, hfit, fun k l hk => ?_, fun w hw => ?_⟩
    · exact Asm.asmAll_getElem? hws hk
    · exact Asm.decode_of_mem_asmAll hws hw

end Sys2Proof.Proofs
end

section
/-! SUPPORT. The arithmetic family of spec/40_arithmetic.md: the line and the word of a three-operand instruction, the
quotient truncated toward zero, and what `exec` answers once the operands fault or resolve. -/

namespace Sys2Proof.Asm
open Sys2Proof.Machine Sys2Proof.Claims

/-- The tokens of a line of four texts without spaces, single spaces between (R111). -/
theorem tokens_line3 {kw ta tb tc : Line} (hkw : ' ' ∉ kw) (ha : ' ' ∉ ta) (hb : ' ' ∉ tb) (hc : ' ' ∉ tc) :
    tokens (kw ++ ' ' :: (ta ++ ' ' :: (tb ++ ' ' :: tc))) = [kw, ta, tb, tc] := by
  rw [tokens_cons_space hkw, tokens_cons_space ha, tokens_cons_space hb, tokens_of_no_space hc]

/-- A three-operand instruction is written as its keyword and encoded under its opcode number: the decoder inverts the
packing of the word's own fields. -/
theorem writtenAs3 {kw : String} {opc : BitVec 8} {mk : Operand → Operand → Operand → Instr}
    (hkw : ∀ a b c, keyword (mk a b c) = kw.toList) (hops : ∀ a b c, operands (mk a b c) = [a, b, c])
    (henc : ∀ a b c, encode (mk a b c) = packWord opc (encodeOperand a) (encodeOperand b) (encodeOperand c)) :
    WrittenAs3 kw opc mk := by
  refine ⟨fun ta tb tc ha hb hc => ?_, fun w hw => ?_⟩
  · have hspace : ' ' ∉ kw.toList := hkw malformed malformed malformed ▸ space_notMem_keyword _
    exact (asm_eq_ok_of_tokens (tokens_line3 hspace ha hb hc)).mpr ⟨_, hkw .., hops .., rfl⟩
  · have hword : encode (mk (decodeOperand (op1Of w)) (decodeOperand (op2Of w)) (decodeOperand (op3Of w))) = w := by
      simp only [henc, encodeOperand_decodeOperand, ← hw, packWord_fields]
    have hwf : (mk (decodeOperand (op1Of w)) (decodeOperand (op2Of w)) (decodeOperand (op3Of w))).wf = true := by
      simp [Instr.wf_iff, hops, decodeOperand_wf]
    exact (congrArg decode hword).symm.trans (decode_encode hwf)

end Sys2Proof.Asm

namespace Sys2Proof.Machine
open Sys2Proof.Claims

/-! ### The truncated quotient (R15, R133) -/

/-- The magnitude of the quotient. -/
theorem natAbs_tdiv (a b : Int) : (tdiv a b).natAbs = a.natAbs / b.natAbs := Int.natAbs_tdiv a b

/-- The sign of the quotient. -/
theorem tdiv_neg_iff (a b : Int) : tdiv a b < 0 ↔ ¬ (a < 0 ↔ b < 0) ∧ tdiv a b ≠ 0 := by
  unfold tdiv
  obtain ha | ha := lt_or_ge a 0 <;> obtain hb | hb := lt_or_ge b 0
  · have := Int.tdiv_nonneg_of_nonpos_of_nonpos ha.le hb.le
    omega
  · have := Int.tdiv_nonpos_of_nonneg_of_nonpos (Int.neg_nonneg_of_nonpos ha.le) (Int.neg_nonpos_of_nonneg hb)
    rw [Int.neg_tdiv_neg] at this
    omega
  · have := Int.tdiv_nonpos_of_nonneg_of_nonpos ha hb.le
    omega
  · have := Int.tdiv_nonneg ha hb
    omega

/-- The only quotient of two words that does not fit is `INT_MIN / -1` (R132): a divisor of magnitude other than 1 at
least halves the dividend. -/
theorem fits32_tdiv_iff (x y : Word) :
    fits32 (tdiv x.toInt y.toInt) = true ↔ ¬ (x.toInt = intMin ∧ y.toInt = -1) := by
  constructor
  · rintro h ⟨hx, hy⟩
    rw [hx, hy] at h
    exact absurd h (by decide)
  · intro h
    have hx := (fits32_iff _).mp (fits32_toInt x)
    rw [fits32_iff]
    simp only [intMin, intMax] at hx h ⊢
    by_cases h1 : y.toInt = 1
    · simpa [tdiv, h1] using hx
    by_cases h2 : y.toInt = -1
    · simp only [tdiv, h2, Int.tdiv_neg, Int.tdiv_one]
      omega
    · have hmag := natAbs_tdiv x.toInt y.toInt
      have hhalf : x.toInt.natAbs / y.toInt.natAbs ≤ x.toInt.natAbs / 2 := by
        obtain h0 | h0 : y.toInt.natAbs = 0 ∨ 2 ≤ y.toInt.natAbs := by omega
        · simp [h0]
        · exact Nat.div_le_div_left h0 (by decide)
      omega

/-! ### What the family's instructions answer (R130, R131) -/

section Family
variable {mk : Operand → Operand → Operand → Instr} {f : OverflowMode → Word → Word → Except Cause Word}
variable (hexec : ∀ dst a b s, exec (mk dst a b) s = settle s (arithCommon (f s.overflowMode) dst a b s))
include hexec

/-- Operand faults come in the order OP1, OP2, OP3, whatever the operation. -/
theorem operandFaults3 : OperandFaults3 mk := by
  intro s dst a b
  refine ⟨fun c hd => ?_, fun d c hd ha => ?_, fun d x c hd ha hb => ?_⟩
  · rw [hexec, arithCommon_of_error1 hd]; rfl
  · rw [hexec, arithCommon_of_error2 hd ha]; rfl
  · rw [hexec, arithCommon_of_error3 hd ha hb]; rfl

section Resolved
variable {s : State} {dst a b : Operand} {d : Fin 12} {x y : Word}
variable (hd : regIdx dst = .ok d) (ha : val s a = .ok x) (hb : val s b = .ok y)
include hd ha hb

/-- What the operation gives is written to the destination. -/
theorem exec_eq_wrote {r : Word} (h : f s.overflowMode x y = .ok r) : exec (mk dst a b) s = .next (wrote s d r) := by
  rw [hexec, arithCommon_of_ok hd ha hb h]; rfl

/-- What the operation raises is taken as a fault. -/
theorem exec_eq_faultedAt {c : Cause} (h : f s.overflowMode x y = .error c) :
    exec (mk dst a b) s = .next (faultedAt s c.code) := by
  rw [hexec, arithCommon_of_error4 hd ha hb h]; rfl

/-- An operation that is `Arith` of an exact result leaves it narrowed. -/
theorem narrowed_of_eq_arith {z : Int} (h : f s.overflowMode x y = arith s.overflowMode z) :
    Narrowed (mk dst a b) s d z := by
  refine ⟨fun hz => ?_, fun hz hm => ?_, fun hz hm => ?_⟩
  · have hfit : fits32 z = true := (fits32_iff z).mpr hz
    exact ⟨wrap32 z, toInt_wrap32 hfit, exec_eq_wrote hexec hd ha hb (h.trans (arith_of_fits hfit))⟩
  · have hout : fits32 z = false := Bool.eq_false_iff.mpr (mt (fits32_iff z).mp hz)
    exact exec_eq_faultedAt hexec hd ha hb (h.trans (hm ▸ arith_fault hout))
  · exact ⟨wrap32 z, toInt_wrap32_emod z, exec_eq_wrote hexec hd ha hb (h.trans (hm ▸ arith_wrap z))⟩

end Resolved
end Family

/-- The exact operation `op` on the values of two words, narrowed. -/
def arithOf (op : Int → Int → Int) (mode : OverflowMode) (x y : Word) : Except Cause Word :=
  arith mode (op x.toInt y.toInt)

/-- The rule of add, sub and mul: an instruction that narrows the exact operation `op`. -/
theorem arithmeticRule {mk : Operand → Operand → Operand → Instr} {op : Int → Int → Int}
    (hexec : ∀ dst a b s, exec (mk dst a b) s = settle s (arithCommon (arithOf op s.overflowMode) dst a b s)) :
    ArithmeticRule mk op :=
  ⟨operandFaults3 hexec, fun _ _ _ _ _ _ _ hd ha hb => narrowed_of_eq_arith hexec hd ha hb rfl⟩

/-! ### Division -/

/-- `div` is the common shape with the operation `divide`. -/
theorem exec_div (dst a b : Operand) (s : State) :
    exec (.div dst a b) s = settle s (arithCommon (divide s.overflowMode) dst a b s) := rfl

section Div
variable {s : State} {dst a b : Operand} {d : Fin 12} {x y : Word}
variable (hd : regIdx dst = .ok d) (ha : val s a = .ok x) (hb : val s b = .ok y)
include hd ha hb

/-- A divisor of value 0 faults with code 4. -/
theorem exec_div_of_eq_zero (hy : y = 0#32) : exec (.div dst a b) s = .next (faultedAt s 4) :=
  exec_eq_faultedAt (c := .divisionByZero) exec_div hd ha hb (hy ▸ divide_zero s.overflowMode x)

/-- Any other divisor gives the narrowed quotient. -/
theorem exec_div_narrowed (hy : y ≠ 0#32) : Narrowed (.div dst a b) s d (tdiv x.toInt y.toInt) :=
  narrowed_of_eq_arith exec_div hd ha hb (divide_of_ne hy)

/-- `INT_MIN / -1` in `wrap` mode gives `INT_MIN` back. -/
theorem exec_div_intMin_wrap (hx : x.toInt = intMin) (hy : y.toInt = -1) (hm : s.overflowMode = .wrap) :
    exec (.div dst a b) s = .next (wrote s d x) := by
  have hx' : x = wrap32 intMin := by rw [← hx, wrap32_toInt]
  have hy' : y = wrap32 (-1) := by rw [← hy, wrap32_toInt]
  have hdiv : divide .wrap x y = .ok x := by subst hx' hy'; rfl
  exact exec_eq_wrote exec_div hd ha hb (hm ▸ hdiv)

end Div
end Sys2Proof.Machine
end

section
/-! PROOFS. The statements of spec/40_arithmetic.md: add, sub, mul, div (R134 to R137) and the division law (R133). -/

namespace Sys2Proof.Proofs
open Sys2Proof.Machine Sys2Proof.Claims

/-- Settles O7: `add` is written and encoded as a three-operand instruction and narrows the sum. -/
theorem addFollowsItsRule : Obligations.AddFollowsItsRule :=
  ⟨Asm.writtenAs3 (fun _ _ _ => rfl) (fun _ _ _ => rfl) (fun _ _ _ => rfl), arithmeticRule fun _ _ _ _ => rfl⟩

/-- Settles O8: `sub` narrows the difference, OP2 minus OP3. -/
theorem subFollowsItsRule : Obligations.SubFollowsItsRule :=
  ⟨Asm.writtenAs3 (fun _ _ _ => rfl) (fun _ _ _ => rfl) (fun _ _ _ => rfl), arithmeticRule fun _ _ _ _ => rfl⟩

/-- Settles O9: `mul` narrows the product. -/
theorem mulFollowsItsRule : Obligations.MulFollowsItsRule :=
  ⟨Asm.writtenAs3 (fun _ _ _ => rfl) (fun _ _ _ => rfl) (fun _ _ _ => rfl), arithmeticRule fun _ _ _ _ => rfl⟩

/-- Settles O10: `div` faults by its operands, then by a divisor 0, and otherwise narrows the quotient, which is R15's
formula. -/
theorem divFollowsItsRule : Obligations.DivFollowsItsRule := by
  refine ⟨Asm.writtenAs3 (fun _ _ _ => rfl) (fun _ _ _ => rfl) (fun _ _ _ => rfl), operandFaults3 exec_div,
    fun s dst a b d x y hd ha hb => ⟨exec_div_of_eq_zero hd ha hb, fun hy => ?_⟩⟩
  rw [← tdiv_eq_sign_mul]
  exact exec_div_narrowed hd ha hb hy

/-- Settles O11: the narrowed quotient fits everywhere but at `INT_MIN / -1`, and has the magnitude and the sign of the
law. -/
theorem divisionTruncatesTowardZero : Obligations.DivisionTruncatesTowardZero := by
  intro s dst a b d x y hd ha hb
  refine ⟨exec_div_of_eq_zero hd ha hb, fun hy hne => ?_, fun hx hy => ⟨?_, exec_div_intMin_wrap hd ha hb hx hy⟩⟩
  · have hfit : Fits (tdiv x.toInt y.toInt) := (fits32_iff _).mp ((fits32_tdiv_iff x y).mpr hne)
    obtain ⟨q, hq, hexec⟩ := (exec_div_narrowed hd ha hb hy).1 hfit
    exact ⟨q, hexec, hq ▸ natAbs_tdiv _ _, hq ▸ tdiv_neg_iff _ _⟩
  · have hy0 : y ≠ 0#32 := by
      rintro rfl
      exact absurd hy (by decide)
    have hout : ¬ Fits (tdiv x.toInt y.toInt) :=
      fun h => (fits32_tdiv_iff x y).mp ((fits32_iff _).mpr h) ⟨hx, hy⟩
    obtain ⟨-, hfault, -⟩ := exec_div_narrowed hd ha hb hy0
    exact hfault hout

end Sys2Proof.Proofs
end

section
/-! SUPPORT. The load and store family of spec/41_load_store.md: the line and the word of a two-operand instruction, and
what `exec` answers for `ld` and `str` once the operands fault or resolve. -/

namespace Sys2Proof

/-- The third field does not reach the bits 127 to 40 of a packed word. -/
theorem packWord_high (opc : BitVec 8) (f1 f2 f3 : OperandField) :
    (packWord opc f1 f2 f3).extractLsb' 40 88 = opc ++ f1 ++ f2 :=
  BitVec.extractLsb'_append_eq_left

end Sys2Proof

namespace Sys2Proof.Asm
open Sys2Proof.Machine Sys2Proof.Claims

/-- The tokens of a line of three texts without spaces, single spaces between (R111). -/
theorem tokens_line2 {kw ta tb : Line} (hkw : ' ' ∉ kw) (ha : ' ' ∉ ta) (hb : ' ' ∉ tb) :
    tokens (kw ++ ' ' :: (ta ++ ' ' :: tb)) = [kw, ta, tb] := by
  rw [tokens_cons_space hkw, tokens_cons_space ha, tokens_of_no_space hb]

/-- A two-operand instruction is written as its keyword and encoded under its opcode number: every word of that opcode
agrees in the bits 127 to 40 with the encoding of its first two fields, and the decoder reads no others. -/
theorem writtenAs2 {kw : String} {opc : BitVec 8} {mk : Operand → Operand → Instr} (h5 : 5 ≤ opc.toNat)
    (hkw : ∀ a b, keyword (mk a b) = kw.toList) (hops : ∀ a b, operands (mk a b) = [a, b])
    (henc : ∀ a b, encode (mk a b) = packWord opc (encodeOperand a) (encodeOperand b) fillerField) :
    WrittenAs2 kw opc mk := by
  refine ⟨fun ta tb ha hb => ?_, fun w hw => ?_⟩
  · have hspace : ' ' ∉ kw.toList := hkw malformed malformed ▸ space_notMem_keyword _
    exact (asm_eq_ok_of_tokens (tokens_line2 hspace ha hb)).mpr ⟨_, hkw .., hops .., rfl⟩
  · have hhigh : w.extractLsb' 40 88 =
        (encode (mk (decodeOperand (op1Of w)) (decodeOperand (op2Of w)))).extractLsb' 40 88 := by
      conv_lhs => rw [← packWord_fields w, packWord_high, hw]
      rw [henc, encodeOperand_decodeOperand, encodeOperand_decodeOperand, packWord_high]
    have hwf : (mk (decodeOperand (op1Of w)) (decodeOperand (op2Of w))).wf = true := by
      simp [Instr.wf_iff, hops, decodeOperand_wf]
    exact (decode_congr_high hhigh (hw ▸ h5)).trans (decode_encode hwf)

end Sys2Proof.Asm

namespace Sys2Proof.Machine

/-! ### What `ld` answers (R151) -/

section Ld
variable {s : State} {addr dst : Operand}

/-- OP1 faults first. -/
theorem exec_ld_of_addr_error {c : Cause} (ha : regIdx addr = .error c) :
    exec (.ld addr dst) s = .next (s.enterFault c) := by
  simp [exec, execLd, ha]

/-- OP2 faults when OP1 does not. -/
theorem exec_ld_of_dst_error {a : Fin 12} {c : Cause} (ha : regIdx addr = .ok a) (hd : regIdx dst = .error c) :
    exec (.ld addr dst) s = .next (s.enterFault c) := by
  simp [exec, execLd, ha, hd]

/-- Resolved operands: the register index of OP1 is the word index. -/
theorem exec_ld_of_ok {a d : Fin 12} (ha : regIdx addr = .ok a) (hd : regIdx dst = .ok d) :
    exec (.ld addr dst) s = .next (s.writeReg d (memRead s.mem a.val)).advance := by
  simp [exec, execLd, ha, hd]

end Ld

/-! ### What `str` answers (R152) -/

section Str
variable {s : State} {src addr : Operand}

/-- OP1 faults first. -/
theorem exec_str_of_src_error {c : Cause} (hv : regVal s src = .error c) :
    exec (.str src addr) s = .next (s.enterFault c) := by
  simp [exec, execStr, hv]

/-- OP2 faults when OP1 does not. -/
theorem exec_str_of_addr_error {v : Word} {c : Cause} (hv : regVal s src = .ok v) (hn : litVal addr = .error c) :
    exec (.str src addr) s = .next (s.enterFault c) := by
  simp [exec, execStr, hv, hn]

section Resolved
variable {v n : Word} (hv : regVal s src = .ok v) (hn : litVal addr = .ok n)
include hv hn

/-- A literal outside the 48 words faults last. -/
theorem exec_str_of_out (h : n.toInt < 0 ∨ 47 < n.toInt) :
    exec (.str src addr) s = .next (s.enterFault .outOfRangeMemoryAccess) := by
  simp [exec, execStr, hv, hn, storeIndex_of_out h]

/-- A literal inside the 48 words is the index of the word written. -/
theorem exec_str_of_mem (h0 : 0 ≤ n.toInt) (h47 : n.toInt ≤ 47) :
    exec (.str src addr) s = .next (s.writeMem n.toInt.toNat v).advance := by
  simp [exec, execStr, hv, hn, storeIndex_of_mem h0 h47]

end Resolved
end Str
end Sys2Proof.Machine
end

section
/-! PROOFS. The statements of spec/41_load_store.md: ld (R151), str (R152), and a store followed by a load (R153). -/

namespace Sys2Proof.Proofs
open Sys2Proof.Machine Sys2Proof.Claims

/-- Settles O13: `ld` faults by OP1, then by OP2, and otherwise reads the word at OP1's register index. -/
theorem loadFollowsItsRule : Obligations.LoadFollowsItsRule :=
  ⟨Asm.writtenAs2 (by decide) (fun _ _ => rfl) (fun _ _ => rfl) (fun _ _ => rfl), fun _ _ _ =>
    ⟨fun _ ha => exec_ld_of_addr_error ha, fun _ _ ha hd => exec_ld_of_dst_error ha hd,
      fun _ _ ha hd => exec_ld_of_ok ha hd⟩⟩

/-- Settles O14: `str` faults by OP1, by OP2, then by the literal's range, and otherwise leaves memory as `memWrite`
does. -/
theorem storeFollowsItsRule : Obligations.StoreFollowsItsRule := by
  refine ⟨Asm.writtenAs2 (by decide) (fun _ _ => rfl) (fun _ _ => rfl) (fun _ _ => rfl), fun s src addr =>
    ⟨fun c hv => exec_str_of_src_error hv, fun v c hv hn => exec_str_of_addr_error hv hn,
      fun v n hv hn hout => exec_str_of_out hv hn hout, fun v n hv hn h0 h47 hwf => ?_⟩⟩
  have hlt : n.toInt.toNat < memWords := by
    unfold memWords
    omega
  exact ⟨memWrite s.mem n.toInt.toNat v, exec_str_of_mem hv hn h0 h47, memWrite_wf s.mem v hwf hlt,
    memRead_memWrite_self s.mem v hwf, fun b hb => memRead_memWrite_other s.mem v hb⟩

/-- Settles O18: the load reads the memory the store left, whose word `A` is the stored value exactly when the store
named it. -/
theorem storeThenLoad : Obligations.StoreThenLoad := by
  intro s src dst addr n sr d a hwf hs ha hd h0 h47
  refine ⟨_, _, exec_str_of_mem (regVal_of_ok hs) (litVal_lit n) h0 h47, exec_ld_of_ok ha hd,
    fun hna => ?_, fun hna => ?_⟩
  · have hidx : n.toInt.toNat = a.val := by omega
    simp [hidx, memRead_memWrite_self s.mem (s.readReg sr) hwf]
  · have hidx : a.val ≠ n.toInt.toNat := by omega
    simp [memRead_memWrite_other s.mem (s.readReg sr) hidx]

end Sys2Proof.Proofs
end

section
/-! SUPPORT. The move and compare family of spec/42_move_compare.md: what `exec` answers for `mov` and `cmp` once the
operands fault or resolve. -/

namespace Sys2Proof.Machine

/-! ### What `mov` answers (R166) -/

section Mov
variable {s : State} {src dst : Operand}

/-- OP1 faults first. -/
theorem exec_mov_of_src_error {c : Cause} (hv : regVal s src = .error c) :
    exec (.mov src dst) s = .next (s.enterFault c) := by
  simp [exec, execMov, hv]

/-- OP2 faults when OP1 does not. -/
theorem exec_mov_of_dst_error {v : Word} {c : Cause} (hv : regVal s src = .ok v) (hd : regIdx dst = .error c) :
    exec (.mov src dst) s = .next (s.enterFault c) := by
  simp [exec, execMov, hv, hd]

/-- Resolved operands: the value of the source is written as it is. -/
theorem exec_mov_of_ok {v : Word} {d : Fin 12} (hv : regVal s src = .ok v) (hd : regIdx dst = .ok d) :
    exec (.mov src dst) s = .next (s.writeReg d v).advance := by
  simp [exec, execMov, hv, hd]

end Mov

/-! ### What `cmp` answers (R167) -/

/-- Equal values give 1: a pattern is fixed by its signed value. -/
theorem compareResult_of_toInt_eq {x k : Word} (h : x.toInt = k.toInt) : compareResult x k = 1#32 :=
  if_pos (BitVec.toInt_inj.mp h)

/-- Unequal values give 0. -/
theorem compareResult_of_toInt_ne {x k : Word} (h : x.toInt ≠ k.toInt) : compareResult x k = 0#32 :=
  if_neg (BitVec.toInt_ne.mp h)

section Cmp
variable {s : State} {target literal : Operand}

/-- OP1 faults first. -/
theorem exec_cmp_of_target_error {c : Cause} (ht : regIdx target = .error c) :
    exec (.cmp target literal) s = .next (s.enterFault c) := by
  simp [exec, execCmp, ht]

/-- OP2 faults when OP1 does not. -/
theorem exec_cmp_of_literal_error {t : Fin 12} {c : Cause} (ht : regIdx target = .ok t)
    (hk : litVal literal = .error c) : exec (.cmp target literal) s = .next (s.enterFault c) := by
  simp [exec, execCmp, ht, hk]

/-- Resolved operands: the outcome overwrites the compared register. -/
theorem exec_cmp_of_ok {t : Fin 12} {k : Word} (ht : regIdx target = .ok t) (hk : litVal literal = .ok k) :
    exec (.cmp target literal) s = .next (s.writeReg t (compareResult (s.readReg t) k)).advance := by
  simp [exec, execCmp, ht, hk]

end Cmp
end Sys2Proof.Machine
end

section
/-! PROOFS. The statements of spec/42_move_compare.md: mov (R166) and cmp (R167). -/

namespace Sys2Proof.Proofs
open Sys2Proof.Machine Sys2Proof.Claims

/-- Settles O15: `mov` faults by OP1, then by OP2, and otherwise writes the source's value. -/
theorem moveFollowsItsRule : Obligations.MoveFollowsItsRule :=
  ⟨Asm.writtenAs2 (by decide) (fun _ _ => rfl) (fun _ _ => rfl) (fun _ _ => rfl), fun _ _ _ =>
    ⟨fun _ hv => exec_mov_of_src_error hv, fun _ _ hv hd => exec_mov_of_dst_error hv hd,
      fun _ _ hv hd => exec_mov_of_ok hv hd⟩⟩

/-- Settles O16: `cmp` faults by OP1, then by OP2, and otherwise writes the comparison's outcome, which is 1 exactly at
equal signed values. -/
theorem compareFollowsItsRule : Obligations.CompareFollowsItsRule := by
  refine ⟨Asm.writtenAs2 (by decide) (fun _ _ => rfl) (fun _ _ => rfl) (fun _ _ => rfl), fun s target literal =>
    ⟨fun c ht => exec_cmp_of_target_error ht, fun t c ht hk => exec_cmp_of_literal_error ht hk,
      fun t k ht hk heq => ?_, fun t k ht hk hne => ?_⟩⟩
  · rw [exec_cmp_of_ok ht hk, compareResult_of_toInt_eq heq]
    rfl
  · rw [exec_cmp_of_ok ht hk, compareResult_of_toInt_ne hne]
    rfl

end Sys2Proof.Proofs
end

section
/-! SUPPORT. The jump family of spec/43_jump.md: what `exec` answers for `jmp` once the operands fault or resolve. -/

namespace Sys2Proof.Machine

/-! ### What `jmp` answers (R181, R182) -/

section Jmp
variable {s : State} {cond target : Operand}

/-- OP1 faults first. -/
theorem exec_jmp_of_cond_error {c : Cause} (hv : regVal s cond = .error c) :
    exec (.jmp cond target) s = .next (s.enterFault c) := by
  simp [exec, execJmp, hv]

/-- OP2 faults when OP1 does not. -/
theorem exec_jmp_of_target_error {v : Word} {c : Cause} (hv : regVal s cond = .ok v) (hn : litVal target = .error c) :
    exec (.jmp cond target) s = .next (s.enterFault c) := by
  simp [exec, execJmp, hv, hn]

section Resolved
variable {v n : Word} (hv : regVal s cond = .ok v) (hn : litVal target = .ok n)
include hv hn

/-- A negative literal faults last, whatever the register holds. -/
theorem exec_jmp_of_neg (h : n.toInt < 0) : exec (.jmp cond target) s = .next (s.enterFault .jumpTargetRange) := by
  simp [exec, execJmp, hv, hn, jumpTarget_of_neg h]

/-- On zero the jump is taken, to the literal itself. -/
theorem exec_jmp_of_taken (h0 : 0 ≤ n.toInt) (hz : v = 0#32) : exec (.jmp cond target) s = .next (s.setPc n) := by
  simp [exec, execJmp, hv, hn, jumpTarget_of_nonneg h0, hz]

/-- On any other pattern control falls through. -/
theorem exec_jmp_of_not_taken (h0 : 0 ≤ n.toInt) (hz : v ≠ 0#32) : exec (.jmp cond target) s = .next s.advance := by
  simp [exec, execJmp, hv, hn, jumpTarget_of_nonneg h0, hz]

end Resolved
end Jmp
end Sys2Proof.Machine
end

section
/-! PROOFS. The statement of spec/43_jump.md: jmp (R181, R182). -/

namespace Sys2Proof.Proofs
open Sys2Proof.Machine Sys2Proof.Claims

/-- Settles O17: `jmp` faults by OP1, by OP2, then by the literal's sign, and otherwise the register's signed value, which
is zero for the zero pattern alone, chooses between the literal and the next index. -/
theorem jumpFollowsItsRule : Obligations.JumpFollowsItsRule := by
  refine ⟨Asm.writtenAs2 (by decide) (fun _ _ => rfl) (fun _ _ => rfl) (fun _ _ => rfl), fun s cond target =>
    ⟨fun c hv => exec_jmp_of_cond_error hv, fun v c hv hn => exec_jmp_of_target_error hv hn,
      fun v n hv hn hneg => exec_jmp_of_neg hv hn hneg, fun v n hv hn h0 hz => ?_, fun v n hv hn h0 hz => ?_⟩⟩
  · have hzero : v = 0#32 := BitVec.toInt_inj.mp (hz.trans BitVec.toInt_zero.symm)
    exact ⟨n, (toNat_of_nonneg h0).1, exec_jmp_of_taken hv hn h0 hzero⟩
  · have hnonzero : v ≠ 0#32 := by
      rintro rfl
      exact hz BitVec.toInt_zero
    exact exec_jmp_of_not_taken hv hn h0 hnonzero

end Sys2Proof.Proofs
end

section
/-! SUPPORT. How a step ends, where none is enabled (spec/10_state.md R40), and what the inspection port shows after a
completed one (spec/60_exceptions.md R231). -/

namespace Sys2Proof.Machine

/-- A step either completes, pausing exactly in trace mode, or is a fault entry from the state it began with. -/
theorem step_pauses_or_faults {s t : State} (h : step s = .next t) :
    (t.faultCause = 0#3 ∧ t.paused = s.trace) ∨ ∃ c, t = s.enterFault c := by
  obtain ⟨-, -, -, w, -, ⟨q, -, rfl⟩ | ⟨i, u, -, -, -, ⟨h0, rfl⟩ | ⟨c, -, rfl, rfl⟩⟩⟩ := step_cases h
  · exact .inr ⟨.illegalOpcode, rfl⟩
  · exact .inl ⟨h0, rfl⟩
  · exact .inr ⟨c, rfl⟩

/-- A step that records a fault is a fault entry from the state it began with. -/
theorem eq_enterFault_of_step {s t : State} (h : step s = .next t) (hne : t.faultCause ≠ 0#3) :
    ∃ c, t = s.enterFault c :=
  (step_pauses_or_faults h).resolve_left fun hdone => hne hdone.1

/-- No step is enabled while a fault is recorded. -/
theorem step_ne_next_of_fault {s : State} (h : s.faultCause ≠ 0#3) (t : State) : step s ≠ .next t :=
  fun hst => h ((step_enabled_iff s).mp ⟨t, hst⟩).1

/-- No step is enabled while `PAUSED` is 1. -/
theorem step_ne_next_of_paused {s : State} (h : s.paused = true) (t : State) : step s ≠ .next t := by
  intro hst
  obtain ⟨-, -, hp⟩ := (step_enabled_iff s).mp ⟨t, hst⟩
  exact Bool.false_ne_true (hp.symm.trans h)

/-- The acknowledgment leaves the fault register as it finds it. -/
@[simp] theorem ack_faultCause (s : State) : (ack s).faultCause = s.faultCause := by rw [ack_eq]

/-- The acknowledgment does nothing while a fault is recorded. -/
theorem ack_of_fault {s : State} (h : s.faultCause ≠ 0#3) : ack s = s :=
  ack_of_not_paused fun hp => h ((runState_paused_iff s).mp hp).1

/-- The inspection port shows all 48 words of memory. -/
@[simp] theorem inspect_mem_length (s : State) : (inspect s).mem.length = 48 := by simp [inspect, memWords]

/-- Each word shown is the word that memory holds. -/
theorem inspect_mem_getElem? (s : State) {a : Nat} (h : a < 48) : (inspect s).mem[a]? = some (memRead s.mem a) := by
  simp [inspect, memWords, h]

/-- The text shown is that of the instruction the recorded word decodes to. -/
theorem inspect_lastText {s : State} {i : Instr} (hv : s.lastValid = true) (hd : decode s.lastWord = .ok i) :
    (inspect s).lastText = some (Asm.formatInstr i) := by
  simp [inspect, hv, Asm.format_of_decode hd]

end Sys2Proof.Machine
end

section
/-! PROOFS. The statements of spec/60_exceptions.md on fault entry (R210, R212) and on the pauses of trace mode
(R231). -/

namespace Sys2Proof.Proofs
open Sys2Proof.Machine Sys2Proof.Claims

/-- Settles O29: a step that records a fault is a fault entry, and a recorded fault disables every step. -/
theorem faultsArePrecise : Obligations.FaultsArePrecise := by
  intro s t h hne
  obtain ⟨c, rfl⟩ := eq_enterFault_of_step h hne
  exact ⟨rfl, step_ne_next_of_fault hne⟩

/-- Settles O30: neither a step nor an acknowledgment goes on from a recorded fault, and reset clears it. -/
theorem faultsAreFinal : Obligations.FaultsAreFinal :=
  ⟨fun s t h => ((step_enabled_iff s).mp ⟨t, h⟩).1, ack_faultCause,
    fun _ hne => ⟨step_ne_next_of_fault hne, ack_of_fault hne⟩, hostReset_faultCause⟩

/-- Settles O39: a completed step pauses as `TRACE` says and leaves its word in the record, whose text the inspection
port shows; a fault entry keeps `PAUSED` at the 0 that every step begins with. -/
theorem tracePauses : Obligations.TracePauses := by
  refine ⟨fun s t h => ?_, fun s t w i h hf hd _ h0 => ?_, fun s hp => ⟨step_ne_next_of_paused hp, fun h0 => ?_⟩,
    fun s hp => ack_of_clear hp⟩
  · obtain ⟨-, -, hclear⟩ := (step_enabled_iff s).mp ⟨t, h⟩
    obtain ⟨h0, hpause⟩ | ⟨c, rfl⟩ := step_pauses_or_faults h
    · exact ⟨fun _ => hpause, fun hne => absurd h0 hne⟩
    · exact ⟨fun h0 => absurd h0 enterFault_faultCause_ne_zero, fun _ => hclear⟩
  · obtain ⟨-, hvalid, -, rfl⟩ | ⟨c, rfl⟩ := step_records_or_faults h hf
    · exact ⟨inspect_lastText hvalid hd, rfl, inspect_mem_length t, fun a ha => inspect_mem_getElem? t ha⟩
    · exact absurd h0 enterFault_faultCause_ne_zero
  · exact ack_of_paused ((runState_paused_iff s).mpr ⟨h0, hp⟩)

end Sys2Proof.Proofs
end

section
/-! PROOFS. The statement of spec/10_state.md R50 and spec/70_reset_and_hazards.md R241 and R243 on the values after
reset. -/

namespace Sys2Proof.Machine

/-- After reset every register reads as 0. -/
@[simp] theorem readReg_hostReset (s : State) (i : Fin 12) : (hostReset s).readReg i = 0 := by
  rw [State.readReg, hostReset_regs]
  exact Vector.getElem_replicate i.isLt

/-- After reset every memory word reads as 0, for none is listed. -/
@[simp] theorem memRead_hostReset (s : State) (a : Nat) : memRead (hostReset s).mem a = 0 := by
  rw [hostReset_mem, memRead, unlistedWord]

/-- Reset keeps `PROG_LEN`, for it keeps the program. -/
theorem hostReset_progLen (s : State) : (hostReset s).progLen = s.progLen :=
  congrArg List.length (hostReset_imem s)

/-- The reset state is a fixed point of reset: its run constants are those that reset keeps. -/
theorem hostReset_reset : hostReset State.reset = State.reset := rfl

end Sys2Proof.Machine

namespace Sys2Proof.Proofs
open Sys2Proof.Machine Sys2Proof.Claims

/-- Settles O44: what reset sets reads as its reset value, and the program is a run constant that reset keeps. -/
theorem resetValues : Obligations.ResetValues := fun s =>
  ⟨readReg_hostReset s, memRead_hostReset s, hostReset_pc s, hostReset_faultCause s, hostReset_faultPc s,
    hostReset_lastValid s, hostReset_paused s, hostReset_imem s, hostReset_progLen s, hostReset_reset⟩

end Sys2Proof.Proofs
end

section
/-! SUPPORT. What a decoded instruction says about its word (spec/30_encoding.md R91 to R97), and how lines split into
tokens (R111). -/

namespace Sys2Proof
open Sys2Proof.Asm

/-- Encoding a decoded instruction packs the word's own fields again; only the third field of a two-operand word is
replaced by the filler (R93, R95). -/
theorem encode_of_decode {w : InstrWord} {i : Instr} (h : decode w = .ok i) :
    encode i = packWord (opcOf w) (op1Of w) (op2Of w) (if (opcOf w).toNat ≤ 4 then op3Of w else fillerField) := by
  unfold decode at h
  split at h
  case h_10 => cases h
  all_goals
    rename_i hn
    have hopc : opcOf w = BitVec.ofNat 8 (opcOf w).toNat := by simp
    rw [hn] at hopc
    cases h
    simp [encode, Instr.opcode, encodeOperand_decodeOperand, hopc]

/-- The opcode number of a decoded instruction is the one its word holds. -/
theorem opcode_of_decode {w : InstrWord} {i : Instr} (h : decode w = .ok i) : i.opcode = opcOf w := by
  rw [← opcOf_encode, encode_of_decode h, opcOf_packWord]

/-- What a word decodes to is well-formed: its operands are read from the word's fields. -/
theorem wf_of_decode {w : InstrWord} {i : Instr} (h : decode w = .ok i) : i.wf = true := by
  unfold decode at h
  split at h
  case h_10 => cases h
  all_goals
    cases h
    simp [Instr.wf, decodeOperand_wf]

end Sys2Proof

namespace Sys2Proof.Asm

/-- A space between two texts separates their tokens. -/
theorem tokens_append_space (pre post : Line) : tokens (pre ++ ' ' :: post) = tokens pre ++ tokens post := by
  induction pre with
  | nil => simp [tokens]
  | cons c cs ih =>
    by_cases hc : c = ' '
    · simp [tokens, hc, ih]
    · obtain ⟨t, ts, ht⟩ := List.exists_cons_of_ne_nil (tokens_ne_nil cs)
      simp [tokens, hc, ih, ht]

/-- No token holds a space. -/
theorem space_notMem_of_mem_tokens {line t : Line} (h : t ∈ tokens line) : ' ' ∉ t := by
  induction line generalizing t with
  | nil =>
    obtain rfl : t = [] := by simpa [tokens] using h
    simp
  | cons c cs ih =>
    by_cases hc : c = ' '
    · obtain rfl | ht : t = [] ∨ t ∈ tokens cs := by simpa [tokens, hc] using h
      · simp
      · exact ih ht
    · obtain ⟨u, us, hu⟩ := List.exists_cons_of_ne_nil (tokens_ne_nil cs)
      obtain rfl | ht : t = c :: u ∨ t ∈ us := by simpa [tokens, hc, hu] using h
      · simpa [eq_comm, hc] using ih (t := u) (by simp [hu])
      · exact ih (by simp [hu, ht])

/-- Joined by single spaces, the tokens are the line. -/
theorem intercalate_tokens (line : Line) : List.intercalate [' '] (tokens line) = line := by
  induction line with
  | nil => rfl
  | cons c cs ih =>
    obtain ⟨t, ts, ht⟩ := List.exists_cons_of_ne_nil (tokens_ne_nil cs)
    rw [ht] at ih
    by_cases hc : c = ' '
    · rw [tokens, if_pos hc, ht, List.intercalate_cons_cons, ih, hc]
      rfl
    · rw [tokens, if_neg hc, ht, ← ih]
      cases ts with
      | nil => simp
      | cons u us => rw [List.intercalate_cons_cons, List.intercalate_cons_cons]; rfl

/-- Without an empty token, what parses is decided by the keyword and the operand tokens alone. -/
theorem parse_of_no_empty {line : Line} (h : [] ∉ tokens line) : parse line = ofTokens (tokens line) := by
  cases ho : ofTokens (tokens line) with
  | error e => simp [parse, refuseEmpty, ho]
  | ok i => exact parse_eq_ok.mpr ⟨ho, h⟩

/-- Without an empty token, a line loads as it assembles (log entry 15). -/
theorem loadLine_of_no_empty {line : Line} (h : [] ∉ tokens line) : loadLine line = asm line := by
  cases ho : ofTokens (tokens line) with
  | error e => rw [loadLine_of_error ((parse_of_no_empty h).trans ho), asm_of_error ho]
  | ok i =>
    have ha : asm line = .ok (encode i) := asm_eq_ok.mpr ⟨i, ho, rfl⟩
    rw [ha, loadLine_eq_ok.mpr ⟨ha, h⟩]

/-- A line with an empty token is refused by the parser and by the load (R111). -/
theorem refused_of_empty {line : Line} (h : [] ∈ tokens line) : Claims.Refused line := by
  obtain ⟨e, he⟩ := parse_of_empty h
  exact ⟨e, he, loadLine_of_error he⟩

end Sys2Proof.Asm
end

section
/-! PROOFS. The statements of spec/30_encoding.md on the encoding, the operand fields, the tokens and the text round
trip. -/

namespace Sys2Proof.Proofs
open Sys2Proof.Machine Sys2Proof.Claims

/-- Settles O3: each field of the packed word is read back, and each well-formed operand from its field. -/
theorem decodeGivesBackEncoded : Obligations.DecodeGivesBackEncoded := fun _ h => decode_encode h

/-- Settles O57: the text's tokens are the keyword and the operands' texts, each of which is read back. -/
theorem formattedTextAssemblesBack : Obligations.FormattedTextAssemblesBack := by
  intro i hno
  have hback : ∀ op ∈ Asm.operands i, Asm.operandOf (Asm.operandText op) = op :=
    fun op hop => Asm.operandOf_operandText (hno op hop)
  exact ⟨Asm.asm_formatInstr hback, Asm.loadLine_formatInstr hback⟩

/-- Settles O4: the encoding packs the word's own fields, the third one where the instruction has three operands. -/
theorem encodeGivesBackDecoded : Obligations.EncodeGivesBackDecoded := by
  intro w i h
  refine ⟨wf_of_decode h, ?_, fun h4 => ?_⟩
  · conv_rhs => rw [← packWord_fields w, packWord_high]
    rw [encode_of_decode h, packWord_high]
  · rw [encode_of_decode h, if_pos h4, packWord_fields]

/-- Settles O6: the kind of a field is 0, 1 or neither, and decides which operand it stands for. -/
theorem operandFieldsResolve : Obligations.OperandFieldsResolve := by
  intro s f
  by_cases h0 : kindOf f = 0x00#8
  · simp [decodeOperand_lit h0, h0, regVal_of_error (regIdx_lit _)]
  by_cases h1 : kindOf f = 0x01#8
  · rw [decodeOperand_reg h1]
    exact ⟨absurd h1, fun _ h => regIdx_reg_of_ge h, fun _ h => regIdx_reg_of_lt h, fun _ => regVal_of_error,
      fun _ => regVal_of_ok, fun _ => rfl, fun h => absurd h h0, fun _ h => absurd h1 h,
      fun h => absurd h h0, fun _ => rfl⟩
  · simp [decodeOperand_bad h0 h1, h0, h1, regVal_of_error (regIdx_bad _ _)]

/-- Settles O53: by induction on the line, along the recursion of `tokens`. -/
theorem tokensSplitAtSingleSpaces : Obligations.TokensSplitAtSingleSpaces := fun line =>
  ⟨Asm.tokens_ne_nil line, fun _ => Asm.space_notMem_of_mem_tokens, Asm.intercalate_tokens line⟩

/-- Settles O55: a space at an end of the line or beside another one leaves an empty token. -/
theorem emptyTokensAreRefused : Obligations.EmptyTokensAreRefused := by
  refine ⟨fun rest => Asm.refused_of_empty ?_, fun pre => Asm.refused_of_empty ?_,
    fun pre post => Asm.refused_of_empty ?_, Asm.refused_of_empty ?_, fun line h => Asm.loadLine_of_no_empty h⟩
  · simp [Asm.tokens]
  · simp [Asm.tokens_append_space, Asm.tokens]
  · simp [Asm.tokens_append_space, Asm.tokens]
  · simp [Asm.tokens]

/-- Settles O1: the decoder computes on the nine words. -/
theorem workedEncodingsDecode : Obligations.WorkedEncodingsDecode :=
  ⟨rfl, rfl, rfl, rfl, rfl, rfl, rfl, rfl, rfl⟩

end Sys2Proof.Proofs
end

section
/-! PROOFS. The statements of spec/40_arithmetic.md R132 on overflow, and the idioms of spec/30_encoding.md R120 and
spec/43_jump.md R184. -/

namespace Sys2Proof.Machine
open Sys2Proof.Claims

/-- A word's own value passes `Arith` unchanged, in both modes. -/
@[simp] theorem arith_toInt (mode : OverflowMode) (x : Word) : arith mode x.toInt = .ok x := by
  rw [arith_of_fits (fits32_toInt x), wrap32_toInt]

/-- Adding the literal 0 writes the other operand's value, in both modes. -/
theorem exec_add_zero {s : State} {dst a : Operand} {d : Fin 12} {x : Word} (hd : regIdx dst = .ok d)
    (ha : val s a = .ok x) : exec (.add dst a (.lit 0)) s = .next (wrote s d x) :=
  exec_eq_wrote (mk := .add) (f := arithOf (· + ·)) (fun _ _ _ _ => rfl) hd ha (val_lit s 0) (by simp [arithOf])

end Sys2Proof.Machine

namespace Sys2Proof.Proofs
open Sys2Proof.Machine Sys2Proof.Claims

/-- Settles O12: sums and differences by the range of a word's value, quotients by `fits32_tdiv_iff`. -/
theorem overflowOnlyWhere : Obligations.OverflowOnlyWhere := by
  intro x y
  have hx := (fits32_iff _).mp (fits32_toInt x)
  have hy := (fits32_iff _).mp (fits32_toInt y)
  simp only [← Bool.not_eq_true, fits32_tdiv_iff, not_not, implies_true, and_true]
  simp only [fits32_iff, intMin, intMax] at hx hy ⊢
  omega

/-- Settles O19: the jump reads the 0 or 1 that the comparison left in the register. -/
theorem compareAndJumpIdiom : Obligations.CompareAndJumpIdiom := by
  intro s r i k l hr hl
  have hcmp := exec_cmp_of_ok (s := s) hr (litVal_lit k)
  have hreg : regVal (s.writeReg i (compareResult (s.readReg i) k)).advance r =
      .ok (compareResult (s.readReg i) k) := by rw [regVal_of_ok hr, readReg_advance, readReg_writeReg_self]
  by_cases heq : (s.readReg i).toInt = k.toInt
  · have hone : compareResult (s.readReg i) k ≠ 0#32 := by rw [compareResult_of_toInt_eq heq]; decide
    refine ⟨_, _, hcmp, exec_jmp_of_not_taken hreg (litVal_lit l) hl hone, absurd heq, fun _ => ?_⟩
    simp [add_assoc]
  · exact ⟨_, _, hcmp, exec_jmp_of_taken hreg (litVal_lit l) hl (compareResult_of_toInt_ne heq),
      fun _ => (toNat_of_nonneg hl).1, fun h => absurd h heq⟩

/-- Settles O20: the sum with 0 is the other operand, and writing a register's own value back changes nothing. -/
theorem constantAndNopIdioms : Obligations.ConstantAndNopIdioms := by
  intro s dst d k hd
  refine ⟨exec_add_zero hd (val_lit s k), ?_⟩
  rw [exec_add_zero hd (val_of_regIdx_ok hd)]
  show Host.Outcome.next (s.writeReg d (s.readReg d)).advance = _
  rw [writeReg_readReg]
  rfl

end Sys2Proof.Proofs
end

section
/-! SUPPORT. The frame of each instruction (spec/60_exceptions.md R210): what a register write, a fall-through and a fault
entry leave alone. -/

namespace Sys2Proof.Machine
open Sys2Proof.Claims

/-- Every instruction takes a fault or keeps the fault registers, and keeps the rest of the state. -/
theorem exec_keeps_rest {i : Instr} {s t : State} (h : exec i s = .next t) : FaultRegsKept s t ∧ RestKept s t :=
  ⟨(exec_effect h).fault.imp id fun ⟨c, _, hc⟩ => ⟨c, hc⟩, (exec_effect h).rest⟩

/-- Memory, and every register but the one `dst` names, are as they were. -/
structure KeepsAllBut (dst : Operand) (s t : State) : Prop where
  readReg : ∀ j : Fin 12, regIdx dst ≠ .ok j → t.readReg j = s.readReg j
  mem : t.mem = s.mem

/-- A write of the register `dst` names and a fall-through. -/
theorem keepsAllBut_writeReg {dst : Operand} {d : Fin 12} (s : State) (v : Word) (hd : regIdx dst = .ok d) :
    KeepsAllBut dst s (s.writeReg d v).advance :=
  ⟨fun _ hj => readReg_writeReg_other s v fun e => hj (e ▸ hd), rfl⟩

/-- A fault entry. -/
theorem keepsAllBut_enterFault (dst : Operand) (s : State) (c : Cause) : KeepsAllBut dst s (s.enterFault c) :=
  ⟨fun _ _ => rfl, rfl⟩

/-- add, sub, mul and div write no register but OP1, and no memory. -/
theorem ArithOutcome.keeps {f : Word → Word → Except Cause Word} {dst a b : Operand} {s t : State}
    (h : ArithOutcome f dst a b s t) : KeepsAllBut dst s t := by
  obtain ⟨d, x, y, r, hd, -, -, -, rfl⟩ | ⟨c, -, rfl⟩ := h
  · exact keepsAllBut_writeReg s r hd
  · exact keepsAllBut_enterFault dst s c

/-- `ld` writes no register but OP2, and no memory. -/
theorem execLd_keeps {addr dst : Operand} {s t : State} (h : execLd addr dst s = .next t) : KeepsAllBut dst s t := by
  obtain ⟨a, d, -, hd, rfl⟩ | ⟨c, -, rfl⟩ := execLd_next h
  · exact keepsAllBut_writeReg s _ hd
  · exact keepsAllBut_enterFault dst s c

/-- `mov` writes no register but OP2, and no memory. -/
theorem execMov_keeps {src dst : Operand} {s t : State} (h : execMov src dst s = .next t) : KeepsAllBut dst s t := by
  obtain ⟨v, d, -, hd, rfl⟩ | ⟨c, -, rfl⟩ := execMov_next h
  · exact keepsAllBut_writeReg s v hd
  · exact keepsAllBut_enterFault dst s c

/-- `cmp` writes no register but OP1, and no memory. -/
theorem execCmp_keeps {target literal : Operand} {s t : State} (h : execCmp target literal s = .next t) :
    KeepsAllBut target s t := by
  obtain ⟨r, k, hr, -, rfl⟩ | ⟨c, -, rfl⟩ := execCmp_next h
  · exact keepsAllBut_writeReg s _ hr
  · exact keepsAllBut_enterFault target s c

/-- `jmp` writes no register and no memory. -/
theorem execJmp_frame {cond target : Operand} {s t : State} (h : execJmp cond target s = .next t) :
    t.regs = s.regs ∧ t.mem = s.mem := by
  obtain ⟨v, n, -, -, -, rfl⟩ | ⟨c, -, rfl⟩ := execJmp_next h
  · split <;> exact ⟨rfl, rfl⟩
  · exact ⟨rfl, rfl⟩

/-- `str` writes no register, and no word but the one its literal names. -/
theorem execStr_frame {src addr : Operand} {s t : State} (h : execStr src addr s = .next t) :
    t.regs = s.regs ∧
      ∀ b : Nat, (∀ n, litVal addr = .ok n → storeIndex n ≠ .ok b) → memRead t.mem b = memRead s.mem b := by
  obtain ⟨v, n, a, -, hn, ha, rfl⟩ | ⟨c, -, rfl⟩ := execStr_next h
  · refine ⟨rfl, fun b hb => memRead_memWrite_other s.mem v ?_⟩
    rintro rfl
    exact hb n hn ha
  · exact ⟨rfl, fun _ _ => rfl⟩

/-- A register frame, completed with what every instruction keeps. -/
theorem onlyRegisterWritten {i : Instr} {dst : Operand} {s t : State} (h : exec i s = .next t)
    (hkeeps : KeepsAllBut dst s t) : OnlyRegisterWritten dst s t :=
  ⟨hkeeps.readReg, fun a => congrArg (memRead · a) hkeeps.mem, exec_keeps_rest h⟩

/-- Equal register files read alike. -/
theorem readReg_congr {s t : State} (h : t.regs = s.regs) (j : Fin 12) : t.readReg j = s.readReg j := by
  rw [State.readReg, State.readReg, h]

end Sys2Proof.Machine
end

section
/-! PROOFS. The frames of the nine instructions. -/

namespace Sys2Proof.Proofs
open Sys2Proof.Machine Sys2Proof.Claims

/-- Settles O21: the four share one outcome, which writes one register or takes a fault. -/
theorem arithmeticFrame : Obligations.ArithmeticFrame := by
  rintro s t dst a b i (rfl | rfl | rfl | rfl) h
  · exact onlyRegisterWritten h (execAdd_next h).keeps
  · exact onlyRegisterWritten h (execSub_next h).keeps
  · exact onlyRegisterWritten h (execMul_next h).keeps
  · exact onlyRegisterWritten h (execDiv_next h).keeps

/-- Settles O22: each of the three writes its destination or takes a fault. -/
theorem loadMoveCompareFrame : Obligations.LoadMoveCompareFrame := by
  rintro s t op other i (rfl | rfl | rfl) h
  · exact onlyRegisterWritten h (execLd_keeps h)
  · exact onlyRegisterWritten h (execMov_keeps h)
  · exact onlyRegisterWritten h (execCmp_keeps h)

/-- Settles O23: the word written is the one `storeIndex` computes from the literal. -/
theorem storeFrame : Obligations.StoreFrame := by
  intro s t src addr h
  obtain ⟨hregs, hmem⟩ := execStr_frame h
  refine ⟨readReg_congr hregs, fun n a hn ha b hb => hmem b fun n' hn' hb' => hb ?_,
    fun hnone b => hmem b fun n => hnone n b, exec_keeps_rest h⟩
  obtain rfl : n = n' := Except.ok.inj (hn.symm.trans hn')
  exact Except.ok.inj (hb'.symm.trans ha)

/-- Settles O24: a jump moves `pc` or takes a fault. -/
theorem jumpFrame : Obligations.JumpFrame := by
  intro s t cond target h
  obtain ⟨hregs, hmem⟩ := execJmp_frame h
  exact ⟨readReg_congr hregs, fun a => congrArg (memRead · a) hmem, exec_keeps_rest h⟩

end Sys2Proof.Proofs
end

section
/-! PROOFS. Registers and memory (spec/10_state.md R21, R22; spec/20_memory.md R61, R63). -/

namespace Sys2Proof.Machine

/-- A memory reads the first word it lists at that word's index. -/
@[simp] theorem memRead_head (k : Nat) (v : Word) (m : Memory) : memRead ((k, v) :: m) k = v := if_pos rfl

/-- At any other index it reads as the rest of the list. -/
theorem memRead_tail {k a : Nat} (v : Word) (m : Memory) (h : a ≠ k) : memRead ((k, v) :: m) a = memRead m a := if_neg h

/-- Where a canonical memory lists a word first, a canonical memory that reads alike there lists none later first. -/
theorem head_index_le {lo k k' : Nat} {v v' : Word} {m m' : Memory} (hm : Memory.wfFrom lo ((k, v) :: m) = true)
    (hm' : Memory.wfFrom lo ((k', v') :: m') = true)
    (h : memRead ((k, v) :: m) k = memRead ((k', v') :: m') k) : k' ≤ k := by
  obtain ⟨-, -, hv, -⟩ := wfFrom_cons.mp hm
  obtain ⟨-, hrest⟩ := wfFrom_cons.mp hm'
  by_contra hlt
  refine hv ?_
  rw [← memRead_head k v m, h]
  exact memRead_below _ (wfFrom_cons.mpr ⟨le_refl k', hrest⟩) (by omega)

/-- Canonical memories that read alike inside the 48 words are the same list. -/
theorem eq_of_memRead_eq {lo : Nat} {m m' : Memory} (hm : Memory.wfFrom lo m = true) (hm' : Memory.wfFrom lo m' = true)
    (h : ∀ a : Nat, a < memWords → memRead m a = memRead m' a) : m = m' := by
  induction m generalizing lo m' with
  | nil =>
    cases m' with
    | nil => rfl
    | cons e' m' =>
      obtain ⟨k', v'⟩ := e'
      obtain ⟨-, hk', hv', -⟩ := wfFrom_cons.mp hm'
      exact absurd ((memRead_head k' v' m').symm.trans (h k' hk').symm) hv'
  | cons e m ih =>
    obtain ⟨k, v⟩ := e
    obtain ⟨-, hk, hv, hrest⟩ := wfFrom_cons.mp hm
    cases m' with
    | nil => exact absurd ((memRead_head k v m).symm.trans (h k hk)) hv
    | cons e' m' =>
      obtain ⟨k', v'⟩ := e'
      obtain ⟨-, hk', -, hrest'⟩ := wfFrom_cons.mp hm'
      obtain rfl : k = k' :=
        le_antisymm (head_index_le hm' hm (h k' hk').symm) (head_index_le hm hm' (h k hk))
      obtain rfl : v = v' := by simpa using h k hk
      have htail : ∀ a : Nat, a < memWords → memRead m a = memRead m' a := by
        intro a ha
        by_cases hak : a = k
        · rw [memRead_below m hrest (by omega), memRead_below m' hrest' (by omega)]
        · simpa only [memRead_tail _ _ hak] using h a ha
      rw [ih hrest hrest' htail]

end Sys2Proof.Machine

namespace Sys2Proof.Proofs
open Sys2Proof.Machine Sys2Proof.Claims

/-- Settles O26: a write inside the 48 words keeps the form and changes its own word only. -/
theorem memoryReadsLastWrite : Obligations.MemoryReadsLastWrite := fun m _ v hm ha =>
  ⟨memWrite_wf m v hm ha, memRead_memWrite_self m v hm, fun _ hb => memRead_memWrite_other m v hb⟩

/-- Settles O27: by induction on the list; the first listed index is the first that does not read as unlisted. -/
theorem canonicalMemoriesAreEqual : Obligations.CanonicalMemoriesAreEqual :=
  fun _ _ hm hm' h => eq_of_memRead_eq hm hm' h

/-- Settles O25: the register written, and any other. -/
theorem registersHoldWhatWasWritten : Obligations.RegistersHoldWhatWasWritten := by
  intro s i j v
  split
  · rename_i h
    rw [h, readReg_writeReg_self]
  · rename_i h
    exact readReg_writeReg_other s v h

end Sys2Proof.Proofs
end

section
/-! PROOFS. Which faults an instruction can record (spec/60_exceptions.md R201, R207, R216). -/

namespace Sys2Proof.Machine
open Sys2Proof.Claims

/-- The codes of the operand faults are in every row of the matrix (R216). -/
theorem operandFault_mem_mayRaise {c : Cause} (h : c = .operandFormatError ∨ c = .operandRangeError)
    (mode : OverflowMode) (i : Instr) : c.code ∈ mayRaise mode i := by
  have hc : c.code = 2#3 ∨ c.code = 3#3 := h.imp (congrArg Cause.code) (congrArg Cause.code)
  cases i
  case add | sub | mul | div =>
    simp only [mayRaise]
    split <;> simp [← or_assoc, hc]
  all_goals simp [mayRaise, ← or_assoc, hc]

/-- What a completed or faulting arithmetic instruction can have raised: an operand fault, or what its operation did. -/
theorem ArithOutcome.cause {f : Word → Word → Except Cause Word} {dst a b : Operand} {s t : State}
    (h : ArithOutcome f dst a b s t) (h0 : s.faultCause = 0#3) (hne : t.faultCause ≠ 0#3) :
    ∃ c, t = s.enterFault c ∧ ((c = .operandFormatError ∨ c = .operandRangeError) ∨ ∃ x y, f x y = .error c) := by
  obtain ⟨d, x, y, r, -, -, -, -, rfl⟩ | ⟨c, hc, rfl⟩ := h
  · exact absurd h0 hne
  · refine ⟨c, rfl, ?_⟩
    obtain hc | hc | ⟨x, y, -, -, hf⟩ := hc
    · exact .inl (.inl hc)
    · exact .inl (.inr hc)
    · exact .inr ⟨x, y, hf⟩

/-- An operation that raises only what the row of `i` allows keeps `i` to its row. -/
theorem ArithOutcome.mem_mayRaise {f : Word → Word → Except Cause Word} {dst a b : Operand} {s t : State} {i : Instr}
    (h : ArithOutcome f dst a b s t) (h0 : s.faultCause = 0#3) (hne : t.faultCause ≠ 0#3)
    (hf : ∀ x y c, f x y = .error c → c.code ∈ mayRaise s.overflowMode i) :
    ∃ c, t = s.enterFault c ∧ c.code ∈ mayRaise s.overflowMode i := by
  obtain ⟨c, rfl, hc | ⟨x, y, hxy⟩⟩ := h.cause h0 hne
  · exact ⟨c, rfl, operandFault_mem_mayRaise hc _ _⟩
  · exact ⟨c, rfl, hf x y c hxy⟩

/-- An instruction that ends with a fault recorded took it from the state it began with, and the cause is one its row of
the matrix allows (R216). -/
theorem exec_mem_mayRaise {i : Instr} {s t : State} (h : exec i s = .next t) (h0 : s.faultCause = 0#3)
    (hne : t.faultCause ≠ 0#3) : ∃ c, t = s.enterFault c ∧ c.code ∈ mayRaise s.overflowMode i := by
  have hreg {op : Operand} {c : Cause} (hc : regIdx op = .error c) : c.code ∈ mayRaise s.overflowMode i :=
    operandFault_mem_mayRaise (regIdx_error hc) _ _
  have hlit {op : Operand} {c : Cause} (hc : litVal op = .error c) : c.code ∈ mayRaise s.overflowMode i :=
    operandFault_mem_mayRaise (.inl (litVal_error hc)) _ _
  cases i with
  | add dst a b =>
    refine (execAdd_next h).mem_mayRaise h0 hne fun x y c hc => ?_
    obtain ⟨rfl, hm, -⟩ := arith_error hc
    simp [mayRaise, hm, Cause.code]
  | sub dst a b =>
    refine (execSub_next h).mem_mayRaise h0 hne fun x y c hc => ?_
    obtain ⟨rfl, hm, -⟩ := arith_error hc
    simp [mayRaise, hm, Cause.code]
  | mul dst a b =>
    refine (execMul_next h).mem_mayRaise h0 hne fun x y c hc => ?_
    obtain ⟨rfl, hm, -⟩ := arith_error hc
    simp [mayRaise, hm, Cause.code]
  | div dst a b =>
    refine (execDiv_next h).mem_mayRaise h0 hne fun x y c hc => ?_
    obtain ⟨rfl, -⟩ | ⟨rfl, -, hm, -⟩ := divide_error hc
    · simp only [mayRaise]
      split <;> simp [Cause.code]
    · simp [mayRaise, hm, Cause.code]
  | ld addr dst =>
    obtain ⟨a, d, -, -, rfl⟩ | ⟨c, hc | ⟨a, -, hc⟩, rfl⟩ := execLd_next h
    · exact absurd h0 hne
    · exact ⟨c, rfl, hreg hc⟩
    · exact ⟨c, rfl, hreg hc⟩
  | str src addr =>
    obtain ⟨v, n, a, -, -, -, rfl⟩ | ⟨c, hc | ⟨v, -, hc⟩ | ⟨v, n, -, -, hc⟩, rfl⟩ := execStr_next h
    · exact absurd h0 hne
    · exact ⟨c, rfl, hreg (regVal_error hc)⟩
    · exact ⟨c, rfl, hlit hc⟩
    · exact ⟨c, rfl, by simp [mayRaise, (storeIndex_error hc).1, Cause.code]⟩
  | mov src dst =>
    obtain ⟨v, d, -, -, rfl⟩ | ⟨c, hc | ⟨v, -, hc⟩, rfl⟩ := execMov_next h
    · exact absurd h0 hne
    · exact ⟨c, rfl, hreg (regVal_error hc)⟩
    · exact ⟨c, rfl, hreg hc⟩
  | cmp target literal =>
    obtain ⟨r, k, -, -, rfl⟩ | ⟨c, hc | ⟨r, -, hc⟩, rfl⟩ := execCmp_next h
    · exact absurd h0 hne
    · exact ⟨c, rfl, hreg hc⟩
    · exact ⟨c, rfl, hlit hc⟩
  | jmp cond target =>
    obtain ⟨v, n, -, -, -, rfl⟩ | ⟨c, hc | ⟨v, -, hc⟩ | ⟨v, n, -, -, hc⟩, rfl⟩ := execJmp_next h
    · exact absurd (by split <;> exact h0) hne
    · exact ⟨c, rfl, hreg (regVal_error hc)⟩
    · exact ⟨c, rfl, hlit hc⟩
    · exact ⟨c, rfl, by simp [mayRaise, (jumpTarget_error hc).1, Cause.code]⟩

/-- Code 6 stands in the rows of add, sub, mul and div alone, and in `fault` mode alone (R207). -/
theorem overflow_mem_mayRaise {mode : OverflowMode} {i : Instr} (h : 6#3 ∈ mayRaise mode i) :
    mode = .fault ∧ 1 ≤ i.opcode.toNat ∧ i.opcode.toNat ≤ 4 := by
  cases i
  case add | sub | mul | div =>
    cases mode
    · simp [Instr.opcode]
    · simp [mayRaise] at h
  all_goals simp [mayRaise] at h

end Sys2Proof.Machine

namespace Sys2Proof.Proofs
open Sys2Proof.Machine Sys2Proof.Claims

/-- Settles O31: case by case over what each instruction can raise. -/
theorem faultMatrix : Obligations.FaultMatrix := by
  intro i s t h0 h hne
  obtain ⟨c, rfl, hc⟩ := exec_mem_mayRaise h h0 hne
  exact ⟨hc, rfl⟩

/-- Settles O32: an illegal word records code 1, and the row of any other word's instruction holds 6 only as the matrix
says. -/
theorem overflowFaultOnlyInFaultMode : Obligations.OverflowFaultOnlyInFaultMode := by
  intro s t w h hf h6
  obtain ⟨h0, -, -, w', hf', hcase⟩ := step_cases h
  obtain rfl : w = w' := Option.some.inj (hf.symm.trans hf')
  obtain ⟨q, -, rfl⟩ | ⟨i, u, hd, hu, -, ⟨hu0, rfl⟩ | ⟨c, -, rfl, rfl⟩⟩ := hcase
  · exact absurd h6 (by decide : Cause.code .illegalOpcode ≠ 6#3)
  · exact absurd (hu0.symm.trans h6) (by decide)
  · have hrow := (faultMatrix i s _ h0 hu enterFault_faultCause_ne_zero).1
    rw [h6] at hrow
    rw [← opcode_of_decode hd]
    exact overflow_mem_mayRaise hrow

/-- Settles O28: the table of `Cause.code`. -/
theorem faultCodes : Obligations.FaultCodes := ⟨rfl, rfl, rfl, rfl, rfl, rfl, rfl⟩

end Sys2Proof.Proofs
end

section
/-! SUPPORT. The invariant of the machine under fault entry, completion, acknowledgment and reset. -/

namespace Sys2Proof.Machine
open Sys2Proof.Claims

/-- `IMEM_DEPTH <= 2^31` (spec/00_scope.md R12). -/
theorem imemDepth_le : Config.imemDepth ≤ 2 ^ 31 := Config.imemDepthLessOne.isLt

/-- From below `2^31` no instruction takes `pc` above `2^31`. -/
theorem Effect.pc_le {s t : State} (h : Effect s t) (hpc : s.pc.toNat < 2 ^ 31) : t.pc.toNat ≤ 2 ^ 31 := by
  have hnext : (s.pc + 1).toNat ≤ 2 ^ 31 := by bv_omega
  cases h with
  | wroteReg d v => exact hnext
  | wroteMem a v _ => exact hnext
  | jumped p hp => exact hp.le
  | fellThrough => exact hnext
  | faulted c _ => exact hpc.le

section Invariant
variable {s t : State} (hs : StateInv s)
include hs

/-- Where a step is enabled, `pc` is below `2^31`. -/
theorem StateInv.pc_lt (hpc : s.pc.toNat < s.progLen) : s.pc.toNat < 2 ^ 31 :=
  hpc.trans_le (hs.program.trans imemDepth_le)

/-- A fault entry where a step is enabled keeps the invariant. -/
theorem StateInv.enterFault (c : Cause) (hpc : s.pc.toNat < s.progLen) (hp : s.paused = false) :
    StateInv (s.enterFault c) where
  memory := hs.memory
  program := hs.program
  pcRange := hs.pcRange
  faultNotPaused _ := hp
  faultAtPc _ := ⟨rfl, hpc⟩
  pausedInTrace := hs.pausedInTrace
  freshIsReset := hs.freshIsReset
  lastInProgram := hs.lastInProgram

/-- A completed step of a word that decodes keeps the invariant. -/
theorem StateInv.completed {u : State} {w : InstrWord} {i : Instr} (hpc : s.pc.toNat < s.progLen)
    (hf : fetch s = some w) (hd : decode w = .ok i) (he : Effect s u) (h0 : u.faultCause = 0#3) :
    StateInv { u with lastValid := true, lastPc := s.pc, lastWord := w, paused := s.trace } := by
  obtain ⟨-, -, -, -, himem, htrace, -⟩ := he.rest
  exact {
    memory := he.memory_wf hs.memory
    program := (congrArg List.length himem).trans_le hs.program
    pcRange := he.pc_le (hs.pc_lt hpc)
    faultNotPaused := fun hne => absurd h0 hne
    faultAtPc := fun hne => absurd h0 hne
    pausedInTrace := fun hp => ⟨htrace.trans hp, rfl⟩
    freshIsReset := fun hv => Bool.noConfusion hv
    lastInProgram := fun _ => ⟨(congrArg (·[s.pc.toNat]?) himem).trans hf, i, hd⟩ }

/-- The acknowledgment keeps the invariant. -/
theorem StateInv.ack : StateInv (ack s) := by
  by_cases hr : s.runState = .paused
  · rw [ack_of_paused hr]
    exact { hs with
      faultNotPaused := fun _ => rfl
      pausedInTrace := fun hp => Bool.noConfusion hp }
  · rw [ack_of_not_paused hr]
    exact hs

end Invariant

/-- `isJump` holds of `jmp` alone. -/
theorem exists_eq_jmp_of_isJump {i : Instr} (h : isJump i = true) : ∃ cond target, i = .jmp cond target := by
  cases i
  case jmp cond target => exact ⟨cond, target, rfl⟩
  all_goals cases h

/-- After reset the invariant holds, if the program fits. -/
theorem stateInv_hostReset {s : State} (h : s.progLen ≤ Config.imemDepth) : StateInv (hostReset s) where
  memory := rfl
  program := h
  pcRange := Nat.zero_le _
  faultNotPaused _ := rfl
  faultAtPc hne := absurd rfl hne
  pausedInTrace hp := Bool.noConfusion hp
  freshIsReset _ := ⟨rfl, rfl, rfl⟩
  lastInProgram hv := Bool.noConfusion hv

end Sys2Proof.Machine
end

section
/-! PROOFS. The invariant along steps and host moves (spec/10_state.md, spec/70_reset_and_hazards.md), and what follows
from it or from a conforming load. -/

namespace Sys2Proof.Proofs
open Sys2Proof.Machine Sys2Proof.Claims

/-- Settles O46: a step is a fault entry or a completed instruction, and either keeps the invariant. -/
theorem stepKeepsInvariant : Obligations.StepKeepsInvariant := by
  intro s t hs h
  obtain ⟨-, hpc, hp, w, hf, hcase⟩ := step_cases h
  obtain ⟨q, -, rfl⟩ | ⟨i, u, hd, -, he, ⟨h0, rfl⟩ | ⟨c, -, rfl, rfl⟩⟩ := hcase
  · exact hs.enterFault .illegalOpcode hpc hp
  · exact hs.completed hpc hf hd he h0
  · exact hs.enterFault c hpc hp

/-- Settles O48: the program stays the one that was loaded, all of whose words decode, and a step of a word that decodes
never records code 1. -/
theorem bootedMachineNeverMeetsIllegalOpcode : Obligations.BootedMachineNeverMeetsIllegalOpcode := by
  intro s0 s t lines trace hboot hreach
  obtain ⟨ws, hws, -, rfl⟩ := boot_eq_ok.mp hboot
  induction hreach with
  | refl => exact (by decide : 0#3 ≠ 1#3)
  | @step u v hu hst _ =>
    obtain ⟨-, w, hf, -⟩ := step_next hst
    have hprog : u.imem = ws := imem_eq_of_reaches hu
    have hmem : w ∈ ws := hprog ▸ List.mem_of_getElem? hf
    obtain ⟨i, hd⟩ := Asm.decode_of_mem_asmAll hws hmem
    obtain ⟨hlo, hhi⟩ := decode_ok_range hd
    obtain ⟨-, hlegal, -⟩ := illegalOpcodesFault
    exact hlegal u v w hf hlo hhi hst
  | ack _ ih => rwa [ack_faultCause]
  | reset _ _ => exact (by decide : 0#3 ≠ 1#3)

/-- Settles O45: the reset state is the reset of itself, and the empty program fits. -/
theorem resetMeetsInvariant : Obligations.ResetMeetsInvariant :=
  stateInv_hostReset (s := State.reset) (Nat.zero_le _)

/-- Settles O47: a load is a reset of the state with the program placed. -/
theorem hostMovesKeepInvariant : Obligations.HostMovesKeepInvariant := by
  have hload : ∀ (s t : State) (lines : List Asm.Line) (trace : Bool), boot lines trace s = .ok t → StateInv t := by
    intro s t lines trace h
    obtain ⟨ws, -, hfit, rfl⟩ := boot_eq_ok.mp h
    exact stateInv_hostReset (s := { s with imem := ws, trace := trace }) hfit
  refine ⟨fun s t m hs h => ?_, hload⟩
  cases m with
  | acknowledge =>
    cases h
    exact hs.ack
  | reset =>
    cases h
    exact stateInv_hostReset hs.program
  | load lines trace => exact hload s t lines trace h

/-- Settles O37: a completed step falls through below `2^31`, where adding 1 does not wrap, or goes to a literal that is
not negative. -/
theorem pcNeverWraps : Obligations.PcNeverWraps := by
  intro s t w i hs hf hd h h0
  obtain ⟨-, hpc, -⟩ := (step_enabled_iff s).mp ⟨t, h⟩
  have hlt := hs.pc_lt hpc
  have hnext : t.pc = s.pc + 1 → t.pc.toNat = s.pc.toNat + 1 := by bv_omega
  obtain ⟨-, hfall, hjump⟩ := pcAdvances s t w i hf hd h
  cases hj : isJump i with
  | false => exact .inl (hnext (hfall h0 hj))
  | true =>
    obtain ⟨cond, target, rfl⟩ := exists_eq_jmp_of_isJump hj
    obtain ⟨v, n, -, -, htaken, huntaken⟩ := hjump cond target h0 rfl
    by_cases hv : v = 0#32
    · have htarget := htaken hv
      have hrange := BitVec.toInt_lt (x := n)
      exact .inr ⟨rfl, by omega⟩
    · exact .inl (hnext (huntaken hv))

end Sys2Proof.Proofs
end

section
/-! SUPPORT. Runs: a step in batch mode, a step beside its batch view (spec/60_exceptions.md R230), and the word that
`withFetchWord` places (log entry 5). -/

namespace Sys2Proof.Machine
open Sys2Proof.Claims

/-- The word placed at an index is found there. -/
theorem placeWord_getElem? (imem : List InstrWord) (n : Nat) (w : InstrWord) : (placeWord imem n w)[n]? = some w := by
  unfold placeWord
  split
  · rename_i h
    rw [List.getElem?_set_self h]
  · rename_i h
    rw [List.getElem?_append_right (by omega), List.getElem?_append_right (by simp)]
    simp

/-- A machine that is not paused goes on, is done, or is faulted. -/
theorem step_of_not_paused {s : State} (hp : s.paused = false) :
    (∃ t, step s = .next t) ∨ (step s = .fault .runDone ∧ s.faultCause = 0#3 ∧ s.progLen ≤ s.pc.toNat) ∨
      (step s = .fault .runFaulted ∧ s.faultCause ≠ 0#3) := by
  cases hr : s.runState with
  | faulted => exact .inr (.inr ⟨step_of_faulted hr, (runState_faulted_iff s).mp hr⟩)
  | done =>
    obtain ⟨h0, hlen, -⟩ := (runState_done_iff s).mp hr
    exact .inr (.inl ⟨step_of_done hr, h0, hlen⟩)
  | paused => exact Bool.noConfusion (((runState_paused_iff s).mp hr).2.symm.trans hp)
  | running => exact .inl (step_total_of_running hr)

/-- In batch mode no step pauses. -/
theorem step_paused_of_batch {s t : State} (h : step s = .next t) (htrace : s.trace = false) : t.paused = false := by
  obtain ⟨-, -, hp⟩ := (step_enabled_iff s).mp ⟨t, h⟩
  obtain ⟨-, hpause⟩ | ⟨c, rfl⟩ := step_pauses_or_faults h
  · exact hpause.trans htrace
  · exact hp

/-! ### The batch view -/

/-- No instruction sees `TRACE` and `PAUSED`. -/
theorem unseen_batchView : Unseen batchView where
  regs _ := rfl
  mem _ := rfl
  overflowMode _ := rfl
  writeReg _ _ _ := rfl
  writeMem _ _ _ := rfl
  setPc _ _ := rfl
  advance _ := rfl
  enterFault _ _ := rfl

/-- The end of a step, pauses apart, is the same in batch mode. -/
theorem retire_batchView (w : InstrWord) (s u : State) :
    retire w (batchView s) (batchView u) = batchView (retire w s u) := by
  rw [retire, retire, apply_ite batchView]
  rfl

/-- A machine that is not paused is in the run state of its batch view. -/
theorem runState_batchView {s : State} (hp : s.paused = false) : (batchView s).runState = s.runState := by
  rw [State.runState, State.runState, hp]
  rfl

/-- Where a step goes on, the batch view's step goes on to the batch view. -/
theorem step_batchView {s t : State} (h : step s = .next t) : step (batchView s) = .next (batchView t) := by
  obtain ⟨hr, w, hf, hw⟩ := step_next h
  obtain ⟨-, -, hp⟩ := (runState_running_iff s).mp hr
  rw [step_of_running ((runState_batchView hp).trans hr) hf]
  obtain ⟨q, hq, rfl⟩ | ⟨i, u, hi, hu, rfl⟩ := runWord_next hw
  · exact runWord_of_error _ hq
  · rw [runWord_of_ok hi (unseen_batchView.exec hu), retire_batchView]

/-- The acknowledgment of a step leaves the machine not paused. -/
theorem ack_paused_of_step {s t : State} (h : step s = .next t) : (ack t).paused = false := by
  obtain ⟨-, -, hp⟩ := (step_enabled_iff s).mp ⟨t, h⟩
  obtain ⟨h0, -⟩ | ⟨c, rfl⟩ := step_pauses_or_faults h
  · cases hpause : t.paused with
    | false => rwa [ack_of_clear hpause]
    | true => rw [ack_of_paused ((runState_paused_iff t).mpr ⟨h0, hpause⟩)]
  · rwa [ack_of_clear (s := s.enterFault c) hp]

/-- The acknowledgment changes nothing of the batch view. -/
theorem batchView_ack (s : State) : batchView (ack s) = batchView s := by rw [ack_eq]; rfl

end Sys2Proof.Machine
end

section
/-! PROOFS. The step, the run states and the runs (spec/10_state.md R40 to R46; spec/60_exceptions.md R230, R232). -/

namespace Sys2Proof.Proofs
open Sys2Proof.Machine Sys2Proof.Claims

/-- Settles O40: by induction on the number of steps; each step, acknowledged, goes to a state with the batch step's
batch view. -/
theorem traceAndBatchRunsAgree : Obligations.TraceAndBatchRunsAgree := by
  intro k
  induction k with
  | zero => exact fun s _ => rfl
  | succ k ih =>
    intro s hp
    have hstop {r : Fault} (hs : step s = .fault r) (hb : step (batchView s) = .fault r) :
        SameOutcome (runAcked (k + 1) s) (Sys2Proof.core.run (k + 1) (batchView s)) := by
      rw [runAcked_of_fault hs, core_run_of_fault hb]
      rfl
    have hview : (batchView s).runState = s.runState := runState_batchView hp
    cases hr : s.runState with
    | faulted => exact hstop (step_of_faulted hr) (step_of_faulted (hview.trans hr))
    | paused => exact hstop (step_of_paused hr) (step_of_paused (hview.trans hr))
    | done => exact hstop (step_of_done hr) (step_of_done (hview.trans hr))
    | running =>
      obtain ⟨t, hst⟩ := step_total_of_running hr
      rw [runAcked_of_next hst, core_run_of_next (step_batchView hst), ← batchView_ack t]
      exact ih (ack t) (ack_paused_of_step hst)

/-- Settles O43: by induction on the length; a batch run stops where its first step does, or where the rest of it does. -/
theorem batchRunsEndInTwoWays : Obligations.BatchRunsEndInTwoWays := by
  refine ⟨fun k => ?_, fun s he => (runState_done_iff _).mpr ⟨rfl, by simp [he], rfl⟩⟩
  induction k with
  | zero => exact fun s _ _ => ⟨fun r h => (by cases h), fun q h => (by cases h)⟩
  | succ k ih =>
    intro s htrace hp
    obtain ⟨t, hst⟩ | ⟨hst, h0, hlen⟩ | ⟨hst, hne⟩ := step_of_not_paused hp
    · obtain ⟨href, hstop⟩ := ih t ((step_keeps_runConstants hst).2.1.trans htrace) (step_paused_of_batch hst htrace)
      rw [core_run_of_next hst]
      refine ⟨href, fun q hq => ?_⟩
      obtain ⟨j, u, hj, hu, hend⟩ := hstop q hq
      exact ⟨j + 1, u, by omega, (core_run_of_next hst).trans hu, hend⟩
    · rw [core_run_of_fault hst]
      exact ⟨fun r h => (by cases h), fun q h => ⟨0, s, by omega, rfl, .inl ⟨by cases h; rfl, h0, hlen⟩⟩⟩
    · rw [core_run_of_fault hst]
      exact ⟨fun r h => (by cases h), fun q h => ⟨0, s, by omega, rfl, .inr ⟨by cases h; rfl, hne⟩⟩⟩

/-- Settles O35: the run state is read off `FAULT_CAUSE`, `PAUSED` and `pc`, and decides the step and the
acknowledgment. -/
theorem runStatesDecideWhatHappens : Obligations.RunStatesDecideWhatHappens := by
  intro s
  refine ⟨runState_faulted_iff s, runState_done_iff s, runState_paused_iff s, runState_running_iff s,
    fun h => ⟨step_of_faulted h, ack_of_not_paused (by simp [h])⟩,
    fun h => ⟨step_of_done h, ack_of_not_paused (by simp [h])⟩, fun h => ⟨step_of_paused h, ?_⟩,
    step_total_of_running, fun h => ?_, fun h => ?_⟩
  · obtain ⟨h0, -⟩ := (runState_paused_iff s).mp h
    rw [ack_of_paused h, runState_running_iff, runState_done_iff]
    exact (lt_or_ge s.pc.toNat s.progLen).imp (fun hlt => ⟨h0, hlt, rfl⟩) fun hge => ⟨h0, hge, rfl⟩
  · exact (runState_running_iff _).mpr ⟨rfl, h, rfl⟩
  · exact (runState_done_iff _).mpr ⟨rfl, h.le, rfl⟩

/-- Settles O33: under the guards the machine is RUNNING and runs the word; the placed word is the one at `pc`. -/
theorem stepRunsDecodedInstruction : Obligations.StepRunsDecodedInstruction := by
  refine ⟨fun s t w i h0 hp hf hd he => ?_, fun s n hn => ⟨?_, rfl, rfl⟩⟩
  · have hr : s.runState = .running :=
      (runState_running_iff s).mpr ⟨h0, (fetch_some_iff s).mp ⟨w, hf⟩, hp⟩
    obtain ⟨-, -, -, hpaused, -⟩ := (exec_effect he).rest
    rw [step_of_running hr hf, runWord_of_ok hd he, retire, hpaused, hp, Bool.false_or]
  · have hword : tableWord 128 n = BitVec.ofNat 128 n := congrArg (BitVec.ofNat 128) (Nat.mod_eq_of_lt hn)
    exact hword ▸ placeWord_getElem? s.imem s.pc.toNat (tableWord 128 n)

/-- Settles O50: each clause is a field of `inspect`. -/
theorem inspectionShowsState : Obligations.InspectionShowsState := fun s =>
  ⟨fun _ ha => inspect_mem_getElem? s ha, inspect_mem_length s, rfl, rfl, rfl, rfl, rfl, fun h => if_neg h,
    fun h => if_pos h, fun h => ⟨if_pos h, if_pos h⟩, fun h => ⟨if_neg (by simp [h]), if_neg (by simp [h])⟩⟩

/-- Settles O52: each signal is the test for its run state. -/
theorem outputsMirrorRunState : Obligations.OutputsMirrorRunState := fun _ =>
  ⟨decide_eq_true_iff, decide_eq_true_iff, decide_eq_true_iff, decide_eq_true_iff⟩

end Sys2Proof.Proofs
end

section
/-! SUPPORT. Two runs whose memories differ in the words 12 to 47 only (spec/20_memory.md R64). -/

namespace Sys2Proof.Machine
open Sys2Proof.Claims

/-- The state with another memory. -/
def State.withMem (m : Memory) (s : State) : State := { s with mem := m }

/-- Registers alone decide the common shape of the arithmetic family, and memory stays what it is. -/
theorem arithCommon_withMem (f : Word → Word → Except Cause Word) (dst a b : Operand) (s : State) (m : Memory) :
    arithCommon f dst a b (s.withMem m) = (arithCommon f dst a b s).map (State.withMem m) := by
  have hval (op : Operand) : val (s.withMem m) op = val s op := val_congr rfl op
  unfold arithCommon
  rw [hval, hval]
  cases regIdx dst with
  | error c => rfl
  | ok d =>
    cases val s a with
    | error c => rfl
    | ok x =>
      cases val s b with
      | error c => rfl
      | ok y =>
        dsimp only
        cases f x y <;> rfl

/-- An instruction rule that carries another memory along ends as it does without. -/
theorem settle_withMem {s t : State} {r : Except Cause State} (m : Memory) (h : settle s r = .next t) :
    settle (s.withMem m) (r.map (State.withMem m)) = .next (t.withMem m) := by
  obtain rfl | ⟨c, rfl, rfl⟩ := settle_next h <;> rfl

/-- The arithmetic family does not touch memory. -/
theorem settle_arithCommon_withMem {f : Word → Word → Except Cause Word} {dst a b : Operand} {s t : State} (m : Memory)
    (h : settle s (arithCommon f dst a b s) = .next t) :
    settle (s.withMem m) (arithCommon f dst a b (s.withMem m)) = .next (t.withMem m) := by
  rw [arithCommon_withMem]
  exact settle_withMem m h

/-- The words 0 to 11, all that an instruction can read, are alike. -/
def SameLowWords (m m' : Memory) : Prop := ∀ a : Nat, a < 12 → memRead m a = memRead m' a

section LowMemory
variable {s t : State} {m : Memory} (hlow : SameLowWords m s.mem)
include hlow

/-- `ld` reads one of the words 0 to 11, by its register index, and does not touch memory. -/
theorem execLd_withMem {addr dst : Operand} (h : execLd addr dst s = .next t) :
    execLd addr dst (s.withMem m) = .next (t.withMem m) := by
  obtain ⟨a, d, ha, hd, rfl⟩ | ⟨c, hc | ⟨a, ha, hc⟩, rfl⟩ := execLd_next h
  · have hword : memRead (s.withMem m).mem a.val = memRead s.mem a.val := hlow a.val a.isLt
    rw [← hword]
    exact exec_ld_of_ok ha hd
  · exact exec_ld_of_addr_error hc
  · exact exec_ld_of_dst_error ha hc

/-- `str` writes the same word in both memories. -/
theorem execStr_withMem {src addr : Operand} (hwf : s.mem.wf = true) (hwf' : m.wf = true)
    (h : execStr src addr s = .next t) :
    ∃ m', execStr src addr (s.withMem m) = .next (t.withMem m') ∧ SameLowWords m' t.mem := by
  have hval : regVal (s.withMem m) src = regVal s src := regVal_congr rfl src
  obtain ⟨v, n, a, hv, hn, ha, rfl⟩ | ⟨c, hc, rfl⟩ := execStr_next h
  · refine ⟨memWrite m a v, by simp [execStr, hval, hv, hn, ha]; rfl, fun b hb => ?_⟩
    show memRead (memWrite m a v) b = memRead (memWrite s.mem a v) b
    by_cases hba : b = a
    · rw [hba, memRead_memWrite_self m v hwf', memRead_memWrite_self s.mem v hwf]
    · rw [memRead_memWrite_other m v hba, memRead_memWrite_other s.mem v hba, hlow b hb]
  · refine ⟨m, ?_, hlow⟩
    obtain hc | ⟨v, hv, hc⟩ | ⟨v, n, hv, hn, hc⟩ := hc
    · exact exec_str_of_src_error (hval.trans hc)
    · exact exec_str_of_addr_error (hval.trans hv) hc
    · obtain ⟨rfl, hout⟩ := storeIndex_error hc
      exact exec_str_of_out (hval.trans hv) hn hout

/-- An instruction does alike with both memories, and the words 0 to 11 read alike again. -/
theorem exec_withMem {i : Instr} (hwf : s.mem.wf = true) (hwf' : m.wf = true) (h : exec i s = .next t) :
    ∃ m', exec i (s.withMem m) = .next (t.withMem m') ∧ SameLowWords m' t.mem := by
  have hregs (op : Operand) : regVal (s.withMem m) op = regVal s op := regVal_congr rfl op
  have hkept (he : exec i (s.withMem m) = .next (t.withMem m)) (hm : t.mem = s.mem) :
      ∃ m', exec i (s.withMem m) = .next (t.withMem m') ∧ SameLowWords m' t.mem :=
    ⟨m, he, hm ▸ hlow⟩
  cases i with
  | add dst a b => exact hkept (settle_arithCommon_withMem m h) (execAdd_next h).keeps.mem
  | sub dst a b => exact hkept (settle_arithCommon_withMem m h) (execSub_next h).keeps.mem
  | mul dst a b => exact hkept (settle_arithCommon_withMem m h) (execMul_next h).keeps.mem
  | div dst a b => exact hkept (settle_arithCommon_withMem m h) (execDiv_next h).keeps.mem
  | ld addr dst => exact hkept (execLd_withMem hlow h) (execLd_keeps h).mem
  | str src addr => exact execStr_withMem hlow hwf hwf' h
  | mov src dst =>
    refine hkept ?_ (execMov_keeps h).mem
    obtain ⟨v, d, hv, hd, rfl⟩ | ⟨c, hc | ⟨v, hv, hc⟩, rfl⟩ := execMov_next h
    · exact exec_mov_of_ok ((hregs src).trans hv) hd
    · exact exec_mov_of_src_error ((hregs src).trans hc)
    · exact exec_mov_of_dst_error ((hregs src).trans hv) hc
  | cmp target literal =>
    refine hkept ?_ (execCmp_keeps h).mem
    obtain ⟨r, k, hr, hk, rfl⟩ | ⟨c, hc | ⟨r, hr, hc⟩, rfl⟩ := execCmp_next h
    · exact exec_cmp_of_ok hr hk
    · exact exec_cmp_of_target_error hc
    · exact exec_cmp_of_literal_error hr hc
  | jmp cond target =>
    refine hkept ?_ (execJmp_frame h).2
    obtain ⟨v, n, hv, hn, h0, rfl⟩ | ⟨c, hc | ⟨v, hv, hc⟩ | ⟨v, n, hv, hn, hc⟩, rfl⟩ := execJmp_next h
    · split
      · exact exec_jmp_of_taken ((hregs cond).trans hv) hn h0 ‹_›
      · exact exec_jmp_of_not_taken ((hregs cond).trans hv) hn h0 ‹_›
    · exact exec_jmp_of_cond_error ((hregs cond).trans hc)
    · exact exec_jmp_of_target_error ((hregs cond).trans hv) hc
    · obtain ⟨rfl, hneg⟩ := jumpTarget_error hc
      exact exec_jmp_of_neg ((hregs cond).trans hv) hn hneg

/-- The same for running a word: the end of the step does not look at memory. -/
theorem runWord_withMem {w : InstrWord} (hwf : s.mem.wf = true) (hwf' : m.wf = true) (h : runWord w s = .next t) :
    ∃ m', runWord w (s.withMem m) = .next (t.withMem m') ∧ SameLowWords m' t.mem := by
  obtain ⟨q, hq, rfl⟩ | ⟨i, u, hi, hu, rfl⟩ := runWord_next h
  · exact ⟨m, runWord_of_error _ hq, hlow⟩
  · obtain ⟨m', hu', hlow'⟩ := exec_withMem hlow hwf hwf' hu
    have hend : retire w (s.withMem m) (u.withMem m') = (retire w s u).withMem m' := by
      rw [retire, retire, apply_ite (State.withMem m')]
      rfl
    have hmem : (retire w s u).mem = u.mem := by
      unfold retire
      split <;> rfl
    exact ⟨m', by rw [runWord_of_ok hi hu', hend], hmem ▸ hlow'⟩

end LowMemory

end Sys2Proof.Machine

namespace Sys2Proof.Proofs
open Sys2Proof.Machine Sys2Proof.Claims

/-- Settles O42: both machines fetch the same word, `ld` reads no word above 11, and `str` reads none. -/
theorem highMemoryIsUnreadable : Obligations.HighMemoryIsUnreadable := by
  rintro s s' t hwf hwf' ⟨hs', hlow⟩ h
  obtain ⟨hr, w, hf, hw⟩ := step_next h
  obtain ⟨m', hw', hlow'⟩ := runWord_withMem hlow hwf hwf' hw
  refine ⟨t.withMem m', ?_, rfl, hlow'⟩
  rw [hs']
  exact (step_of_running (s := s.withMem s'.mem) hr hf).trans hw'

end Sys2Proof.Proofs
end

section
/-! PROOFS. The ports of a step (spec/10_state.md R45; log entry 17). -/

namespace Sys2Proof.Machine
open Sys2Proof.Claims

/-- A register port is used by an operand that names a register, at its index and with its value. -/
theorem regPort_eq_some {s : State} {op : Operand} {a : Access 4} (h : regPort s op = some a) :
    ∃ j : Fin 12, regIdx op = .ok j ∧ a.index.toNat = j.val ∧ a.data = s.readReg j := by
  unfold regPort at h
  cases hj : regIdx op with
  | error c => simp [hj] at h
  | ok j =>
    obtain rfl : _ = a := by simpa [hj] using h
    exact ⟨j, rfl, Nat.mod_eq_of_lt (by omega), rfl⟩

/-- Read port A serves one operand's register, if any. -/
theorem readPortA_eq_some {s : State} {i : Instr} {a : Access 4} (h : readPortA s i = some a) :
    ∃ op, regPort s op = some a := by
  cases i
  case ld addr dst => cases h
  all_goals exact ⟨_, h⟩

/-- Read port B serves one operand's register, if any. -/
theorem readPortB_eq_some {s : State} {i : Instr} {a : Access 4} (h : readPortB s i = some a) :
    ∃ op, regPort s op = some a := by
  cases i
  case add dst x y => exact ⟨_, h⟩
  case sub dst x y => exact ⟨_, h⟩
  case mul dst x y => exact ⟨_, h⟩
  case div dst x y => exact ⟨_, h⟩
  all_goals cases h

/-- The memory read port is used by `ld`, below index 12, with the word there. -/
theorem memReadPort_eq_some {s : State} {i : Instr} {a : Access 6} (h : memReadPort s i = some a) :
    a.index.toNat < 12 ∧ a.data = memRead s.mem a.index.toNat := by
  cases i
  case ld addr dst =>
    unfold memReadPort at h
    cases hj : regIdx addr with
    | error c => simp [hj] at h
    | ok j =>
      obtain rfl : _ = a := by simpa [hj] using h
      have hidx : (BitVec.ofNat 6 j.val).toNat = j.val := Nat.mod_eq_of_lt (by omega)
      simp [hidx]
  all_goals cases h

/-- What every register reads as, by index; 0 beyond the 12. -/
def regAt (s : State) (k : Nat) : Word := if h : k < 12 then s.readReg ⟨k, h⟩ else 0

/-- An index below 12 reads its register. -/
@[simp] theorem regAt_val (s : State) (j : Fin 12) : regAt s j.val = s.readReg j := dif_pos j.isLt

/-- The write port of the register `dst` names tells the new register file, if no other register was written. -/
theorem KeepsAllBut.readReg_eq_afterWrite {dst : Operand} {s t : State} (h : KeepsAllBut dst s t) (j : Fin 12) :
    t.readReg j = afterWrite (regPort t dst) (regAt s) j.val := by
  cases hd : regIdx dst with
  | error c => simpa [regPort, hd, afterWrite] using h.readReg j (by simp [hd])
  | ok d =>
    have hidx : (BitVec.ofNat 4 d.val).toNat = d.val := Nat.mod_eq_of_lt (by omega)
    by_cases hj : j = d
    · simp [regPort, hd, afterWrite, hidx, hj]
    · have hval : d.val ≠ j.val := fun e => hj (Fin.ext e.symm)
      have hkept : t.readReg j = s.readReg j := h.readReg j fun e => hj (Except.ok.inj (e.symm.trans hd))
      simpa [regPort, hd, afterWrite, hidx, hval] using hkept

/-- The write port of the word a store's literal names tells the new memory, if no other word was written. -/
theorem memRead_eq_afterWrite_of_store {addr : Operand} {s t : State}
    (h : ∀ b : Nat, (∀ n, litVal addr = .ok n → storeIndex n ≠ .ok b) → memRead t.mem b = memRead s.mem b)
    (b : Nat) : memRead t.mem b = afterWrite (storePort t addr) (memRead s.mem) b := by
  cases hn : litVal addr with
  | error c => simpa [storePort, hn, afterWrite] using h b (by simp [hn])
  | ok n =>
    cases ha : storeIndex n with
    | error c => simpa [storePort, hn, ha, afterWrite] using h b (by simp [hn, ha])
    | ok a =>
      obtain ⟨hlt, -⟩ := storeIndex_ok ha
      have hidx : (BitVec.ofNat 6 a).toNat = a := Nat.mod_eq_of_lt (hlt.trans (by decide))
      by_cases hb : a = b
      · subst hb
        simp [storePort, hn, ha, afterWrite, hidx]
      · simpa [storePort, hn, ha, afterWrite, hidx, hb] using h b (by simp [hn, ha, hb])

/-- No instruction has both write ports. -/
theorem regWritePort_or_memWritePort (t : State) (i : Instr) : regWritePort t i = none ∨ memWritePort t i = none := by
  cases i
  case str src addr => exact .inl rfl
  all_goals exact .inr rfl

/-- The register write port looks at the registers alone. -/
theorem regWritePort_congr {t u : State} (h : t.regs = u.regs) (i : Instr) : regWritePort t i = regWritePort u i := by
  cases i <;> simp [regWritePort, regPort, State.readReg, h]

/-- The memory write port looks at memory alone. -/
theorem memWritePort_congr {t u : State} (h : t.mem = u.mem) (i : Instr) : memWritePort t i = memWritePort u i := by
  cases i <;> simp [memWritePort, storePort, h]

/-- A step's ports where the word fetched decodes. -/
theorem ports_of_decode {s t : State} {w : InstrWord} {i : Instr} (h : step s = .next t) (hf : fetch s = some w)
    (hd : decode w = .ok i) : ports s = some (portUse w i s t) := by
  simp [ports, h, hf, hd]

/-- A step's ports where the word fetched is illegal. -/
theorem ports_of_illegal {s t : State} {w : InstrWord} {q : Reject} (h : step s = .next t) (hf : fetch s = some w)
    (hd : decode w = .error q) : ports s = some (fetchOnly w s) := by
  simp [ports, h, hf, hd]

section Exec
variable {i : Instr} {s t : State} (h : exec i s = .next t)
include h

/-- The register write port tells all that an instruction does to the registers. -/
theorem readReg_eq_afterWrite (j : Fin 12) : t.readReg j = afterWrite (regWritePort t i) (regAt s) j.val := by
  cases i with
  | add dst a b => exact (execAdd_next h).keeps.readReg_eq_afterWrite j
  | sub dst a b => exact (execSub_next h).keeps.readReg_eq_afterWrite j
  | mul dst a b => exact (execMul_next h).keeps.readReg_eq_afterWrite j
  | div dst a b => exact (execDiv_next h).keeps.readReg_eq_afterWrite j
  | ld addr dst => exact (execLd_keeps h).readReg_eq_afterWrite j
  | str src addr => exact (readReg_congr (execStr_frame h).1 j).trans (regAt_val s j).symm
  | mov src dst => exact (execMov_keeps h).readReg_eq_afterWrite j
  | cmp target literal => exact (execCmp_keeps h).readReg_eq_afterWrite j
  | jmp cond target => exact (readReg_congr (execJmp_frame h).1 j).trans (regAt_val s j).symm

/-- The memory write port tells all that an instruction does to memory. -/
theorem memRead_eq_afterWrite (b : Nat) : memRead t.mem b = afterWrite (memWritePort t i) (memRead s.mem) b := by
  have hkept (hm : t.mem = s.mem) : memRead t.mem b = memRead s.mem b := by rw [hm]
  cases i with
  | add dst x y => exact hkept (execAdd_next h).keeps.mem
  | sub dst x y => exact hkept (execSub_next h).keeps.mem
  | mul dst x y => exact hkept (execMul_next h).keeps.mem
  | div dst x y => exact hkept (execDiv_next h).keeps.mem
  | ld addr dst => exact hkept (execLd_keeps h).mem
  | str src addr => exact memRead_eq_afterWrite_of_store (execStr_frame h).2 b
  | mov src dst => exact hkept (execMov_keeps h).mem
  | cmp target literal => exact hkept (execCmp_keeps h).mem
  | jmp cond target => exact hkept (execJmp_frame h).2

end Exec

end Sys2Proof.Machine

namespace Sys2Proof.Proofs
open Sys2Proof.Machine Sys2Proof.Claims

/-- Settles O51: the write ports tell the frame of the completed instruction, and a fault entry writes nothing. -/
theorem portsCarryTheStep : Obligations.PortsCarryTheStep := by
  intro s t h
  have hregs {c : Cause} (j : Fin 12) : (s.enterFault c).readReg j = regAt s j.val := (regAt_val s j).symm
  obtain ⟨-, -, -, w, hf, ⟨q, hq, rfl⟩ | ⟨i, u, hd, hu, -, hend⟩⟩ := step_cases h
  · exact ⟨fetchOnly w s, ports_of_illegal h hf hq, rfl, hf, by simp [fetchOnly], by simp [fetchOnly], hregs,
      fun _ => rfl, fun _ => ⟨rfl, rfl⟩, .inl rfl⟩
  refine ⟨portUse w i s t, ports_of_decode h hf hd, rfl, hf, fun a ha => ?_, fun a => memReadPort_eq_some, ?_⟩
  · obtain ⟨op, hop⟩ := ha.elim readPortA_eq_some readPortB_eq_some
    obtain ⟨j, -, hj⟩ := regPort_eq_some hop
    exact ⟨j, hj⟩
  obtain ⟨h0, ht⟩ | ⟨c, -, rfl, rfl⟩ := hend
  · have ht0 : t.faultCause = 0#3 := by rw [ht, h0]
    have htregs : t.regs = u.regs := by rw [ht]
    have htmem : t.mem = u.mem := by rw [ht]
    simp only [portUse, if_pos ht0, regWritePort_congr htregs, memWritePort_congr htmem, readReg_congr htregs, htmem]
    exact ⟨readReg_eq_afterWrite hu, memRead_eq_afterWrite hu, fun hne => absurd ht0 hne,
      regWritePort_or_memWritePort u i⟩
  · have hreg : (portUse w i s (s.enterFault c)).regWrite = none := if_neg enterFault_faultCause_ne_zero
    have hmem : (portUse w i s (s.enterFault c)).memWrite = none := if_neg enterFault_faultCause_ne_zero
    rw [hreg, hmem]
    exact ⟨hregs, fun _ => rfl, fun _ => ⟨rfl, rfl⟩, .inl rfl⟩

end Sys2Proof.Proofs
end
